-- ==== Sys2Proof/Word.lean ====
section
/-! DEFINITION. The machine's word and the widths of the fields the spec names (00_scope.md R5 to R7,
30_encoding.md R93). Arithmetic on `Word` is `BitVec` arithmetic, which wraps modulo 2^16 as R7 asks. -/

namespace Sys2Proof

/-- A word: 16 bits, "unsigned 16-bit quantities modulo 2^16" (R5, R7). Registers, the PC, memory cells
and addresses are words. -/
abbrev Word := BitVec 16

/-- A byte: what a key event delivers and what the display receives (R62, R63). Memory has no bytes (R50). -/
abbrev Byte := BitVec 8

/-- A 3-bit register field; the value `i` names `x[i]` (R20, R93). -/
abbrev RegNum := BitVec 3

/-- A priority level, 0 to 7 (R24, R27). -/
abbrev Priority := BitVec 3

/-- A trap, exception or interrupt vector, 8 bits (R32, R93). -/
abbrev Vector8 := BitVec 8

end Sys2Proof
end

