-- ==== Sys2Proof/Syntax.lean ====
section
/-! DEFINITION. The instructions as syntax: one constructor for each of the 34 rows of
spec/opcode_table.json, its fields those of 30_encoding.md R92 and R93. Immediates are kept as the raw
field; how each becomes a 16-bit operand is R94 (`Machine/Operands.lean`). -/

namespace Sys2Proof

/-- The rows of the opcode table. The first nineteen are its rows of kind "instruction" and "reserved",
which the core decodes (R95, R101). The last fifteen are its rows of kind "alias": assembler spellings of
words of JMP, TRAP and BR (R111, R112), which the decoder reads as those core instructions. -/
inductive Instr where
  -- 41_alu.md
  | addReg (dr sr1 sr2 : RegNum)
  | addImm (dr sr1 : RegNum) (imm5 : BitVec 5)
  | andReg (dr sr1 sr2 : RegNum)
  | andImm (dr sr1 : RegNum) (imm5 : BitVec 5)
  | not (dr sr : RegNum)
  -- 42_control.md
  | br (n z p : Bool) (pcOffset9 : BitVec 9)
  | jmp (baseR : RegNum)
  | jsr (pcOffset11 : BitVec 11)
  | jsrr (baseR : RegNum)
  -- 43_load_store.md
  | ld (dr : RegNum) (pcOffset9 : BitVec 9)
  | ldi (dr : RegNum) (pcOffset9 : BitVec 9)
  | ldr (dr baseR : RegNum) (offset6 : BitVec 6)
  | lea (dr : RegNum) (pcOffset9 : BitVec 9)
  | st (sr : RegNum) (pcOffset9 : BitVec 9)
  | sti (sr : RegNum) (pcOffset9 : BitVec 9)
  | str (sr baseR : RegNum) (offset6 : BitVec 6)
  -- 44_system.md
  | rti
  | trap (trapvect8 : Vector8)
  | reserved
  -- assembler spellings: 30_encoding.md R112, 44_system.md R181
  | ret
  | getc
  | out
  | puts
  | input
  | putsp
  | halt
  -- assembler spellings: 30_encoding.md R111
  | brn (pcOffset9 : BitVec 9)
  | brz (pcOffset9 : BitVec 9)
  | brp (pcOffset9 : BitVec 9)
  | brnz (pcOffset9 : BitVec 9)
  | brnp (pcOffset9 : BitVec 9)
  | brzp (pcOffset9 : BitVec 9)
  | brnzp (pcOffset9 : BitVec 9)
  | brBare (pcOffset9 : BitVec 9)
  deriving DecidableEq, Repr

end Sys2Proof
end

