-- ==== Sys2Proof/WellFormed.lean ====
section
/-! DEFINITION. Which terms of `Instr` are instructions of the machine. The widths of the fields are in
their types, so the one thing left to check is the row's kind: opcode_table.json's rows of kind "alias"
"are assembler spellings and not separate instructions" (30_encoding.md R101). -/

namespace Sys2Proof

/-- `i` is one of the nineteen rows the core decodes a word into (kind "instruction" or "reserved"), and
not an assembler spelling of one (kind "alias"). -/
def Instr.wellFormed : Instr → Bool
  | .addReg _ _ _ | .addImm _ _ _ | .andReg _ _ _ | .andImm _ _ _ | .not _ _ => true
  | .br _ _ _ _ | .jmp _ | .jsr _ | .jsrr _ => true
  | .ld _ _ | .ldi _ _ | .ldr _ _ _ | .lea _ _ | .st _ _ | .sti _ _ | .str _ _ _ => true
  | .rti | .trap _ | .reserved => true
  | .ret | .getc | .out | .puts | .input | .putsp | .halt => false
  | .brn _ | .brz _ | .brp _ | .brnz _ | .brnp _ | .brzp _ | .brnzp _ | .brBare _ => false

end Sys2Proof
end

