-- ==== Sys2Proof/Decode.lean ====
section
/-! DEFINITION. The decoder (30_encoding.md R91 to R98, 40_cycle.md R143), the encoder (R101), what each
assembler spelling stands for (R111, R112), and the opcode table of R101 as data. -/

namespace Sys2Proof

/-- The opcode field `instr[15:12]` (R91). -/
def opcodeOf (w : Word) : BitVec 4 := w.extractLsb' 12 4

/-- DR of most formats, SR of ST, STI, STR: `instr[11:9]` (R93). -/
def fieldDr (w : Word) : RegNum := w.extractLsb' 9 3

/-- SR1, SR of NOT, BaseR: `instr[8:6]` (R93). -/
def fieldBase (w : Word) : RegNum := w.extractLsb' 6 3

/-- SR2: `instr[2:0]` (R93). -/
def fieldSr2 (w : Word) : RegNum := w.extractLsb' 0 3

/-- imm5: `instr[4:0]` (R93). -/
def fieldImm5 (w : Word) : BitVec 5 := w.extractLsb' 0 5

/-- offset6: `instr[5:0]` (R93). -/
def fieldOffset6 (w : Word) : BitVec 6 := w.extractLsb' 0 6

/-- PCoffset9: `instr[8:0]` (R93). -/
def fieldOffset9 (w : Word) : BitVec 9 := w.extractLsb' 0 9

/-- PCoffset11: `instr[10:0]` (R93). -/
def fieldOffset11 (w : Word) : BitVec 11 := w.extractLsb' 0 11

/-- trapvect8: `instr[7:0]` (R93). -/
def fieldTrapvect8 (w : Word) : Vector8 := w.extractLsb' 0 8

/-- The instruction a word is: decided by `instr[15:12]`, by `instr[5]` for ADD and AND and by `instr[11]`
for opcode 0100, and by no other bit (R91, R95, R96). Total on all 65536 words (R143); the fixed fields of
the canonical encodings are not looked at (R97, D6). -/
def decode (w : Word) : Instr :=
  match w.getLsbD 15, w.getLsbD 14, w.getLsbD 13, w.getLsbD 12 with
  | false, false, false, false => .br (w.getLsbD 11) (w.getLsbD 10) (w.getLsbD 9) (fieldOffset9 w)
  | false, false, false, true =>
    bif w.getLsbD 5 then .addImm (fieldDr w) (fieldBase w) (fieldImm5 w)
    else .addReg (fieldDr w) (fieldBase w) (fieldSr2 w)
  | false, false, true, false => .ld (fieldDr w) (fieldOffset9 w)
  | false, false, true, true => .st (fieldDr w) (fieldOffset9 w)
  | false, true, false, false =>
    bif w.getLsbD 11 then .jsr (fieldOffset11 w) else .jsrr (fieldBase w)
  | false, true, false, true =>
    bif w.getLsbD 5 then .andImm (fieldDr w) (fieldBase w) (fieldImm5 w)
    else .andReg (fieldDr w) (fieldBase w) (fieldSr2 w)
  | false, true, true, false => .ldr (fieldDr w) (fieldBase w) (fieldOffset6 w)
  | false, true, true, true => .str (fieldDr w) (fieldBase w) (fieldOffset6 w)
  | true, false, false, false => .rti
  | true, false, false, true => .not (fieldDr w) (fieldBase w)
  | true, false, true, false => .ldi (fieldDr w) (fieldOffset9 w)
  | true, false, true, true => .sti (fieldDr w) (fieldOffset9 w)
  | true, true, false, false => .jmp (fieldBase w)
  | true, true, false, true => .reserved
  | true, true, true, false => .lea (fieldDr w) (fieldOffset9 w)
  | true, true, true, true => .trap (fieldTrapvect8 w)

/-- Why bits handed to the decoder from outside are no instruction. -/
inductive DecodeError where
  /-- The bits do not fit one word: every instruction is one 16-bit word (R90). -/
  | notOneWord
  deriving DecidableEq, Repr

/-- Decoding of `nbits` bits `w`, bit 0 the least significant: an instruction is one 16-bit word (R90), and
fewer bits stand for a word whose upper bits are 0. -/
def decodeBits (nbits w : Nat) : Except DecodeError Instr :=
  if nbits ≤ 16 ∧ w < 2 ^ nbits then .ok (decode (BitVec.ofNat 16 w)) else .error .notOneWord

/-- The instruction the decoder reads from an instruction of `nbits` bits `w` of opcode_table.json. -/
def decodeTableWord (nbits w : Nat) : Option Instr :=
  match decodeBits nbits w with
  | .ok i => some i
  | .error _ => none

/-- The core instruction an assembler spelling stands for (R111, R112; bare `br` as `brnzp`, D22); a core
instruction stands for itself. -/
def Instr.canonical : Instr → Instr
  | .ret => .jmp 7#3
  | .getc => .trap 0x20#8
  | .out => .trap 0x21#8
  | .puts => .trap 0x22#8
  | .input => .trap 0x23#8
  | .putsp => .trap 0x24#8
  | .halt => .trap 0x25#8
  | .brn off => .br true false false off
  | .brz off => .br false true false off
  | .brp off => .br false false true off
  | .brnz off => .br true true false off
  | .brnp off => .br true false true off
  | .brzp off => .br false true true off
  | .brnzp off => .br true true true off
  | .brBare off => .br true true true off
  | .addReg dr sr1 sr2 => .addReg dr sr1 sr2
  | .addImm dr sr1 imm5 => .addImm dr sr1 imm5
  | .andReg dr sr1 sr2 => .andReg dr sr1 sr2
  | .andImm dr sr1 imm5 => .andImm dr sr1 imm5
  | .not dr sr => .not dr sr
  | .br n z p off => .br n z p off
  | .jmp base => .jmp base
  | .jsr off => .jsr off
  | .jsrr base => .jsrr base
  | .ld dr off => .ld dr off
  | .ldi dr off => .ldi dr off
  | .ldr dr base off => .ldr dr base off
  | .lea dr off => .lea dr off
  | .st sr off => .st sr off
  | .sti sr off => .sti sr off
  | .str sr base off => .str sr base off
  | .rti => .rti
  | .trap v => .trap v
  | .reserved => .reserved

/-- A field placed in a word with its lowest bit at bit `lo`. -/
def place {k : Nat} (f : BitVec k) (lo : Nat) : Word := f.setWidth 16 <<< lo

/-- One bit of the branch mask. -/
def maskBit (b : Bool) : BitVec 1 := BitVec.ofBool b

/-- The canonical word of each instruction: the value of the fixed bits of R101 with the fields of R93 in
place, the spellings as R111 and R112 give them. The reserved row has no canonical low bits; 0xD000 is its
`match`. -/
def encode : Instr → Word
  | .addReg dr sr1 sr2 => 0x1000#16 ||| place dr 9 ||| place sr1 6 ||| place sr2 0
  | .addImm dr sr1 imm5 => 0x1020#16 ||| place dr 9 ||| place sr1 6 ||| place imm5 0
  | .andReg dr sr1 sr2 => 0x5000#16 ||| place dr 9 ||| place sr1 6 ||| place sr2 0
  | .andImm dr sr1 imm5 => 0x5020#16 ||| place dr 9 ||| place sr1 6 ||| place imm5 0
  | .not dr sr => 0x903F#16 ||| place dr 9 ||| place sr 6
  | .br n z p off =>
    0x0000#16 ||| place (maskBit n) 11 ||| place (maskBit z) 10 ||| place (maskBit p) 9 ||| place off 0
  | .jmp base => 0xC000#16 ||| place base 6
  | .jsr off => 0x4800#16 ||| place off 0
  | .jsrr base => 0x4000#16 ||| place base 6
  | .ld dr off => 0x2000#16 ||| place dr 9 ||| place off 0
  | .ldi dr off => 0xA000#16 ||| place dr 9 ||| place off 0
  | .ldr dr base off => 0x6000#16 ||| place dr 9 ||| place base 6 ||| place off 0
  | .lea dr off => 0xE000#16 ||| place dr 9 ||| place off 0
  | .st sr off => 0x3000#16 ||| place sr 9 ||| place off 0
  | .sti sr off => 0xB000#16 ||| place sr 9 ||| place off 0
  | .str sr base off => 0x7000#16 ||| place sr 9 ||| place base 6 ||| place off 0
  | .rti => 0x8000#16
  | .trap v => 0xF000#16 ||| place v 0
  | .reserved => 0xD000#16
  | .ret => 0xC1C0#16
  | .getc => 0xF020#16
  | .out => 0xF021#16
  | .puts => 0xF022#16
  | .input => 0xF023#16
  | .putsp => 0xF024#16
  | .halt => 0xF025#16
  | .brn off => 0x0800#16 ||| place off 0
  | .brz off => 0x0400#16 ||| place off 0
  | .brp off => 0x0200#16 ||| place off 0
  | .brnz off => 0x0C00#16 ||| place off 0
  | .brnp off => 0x0A00#16 ||| place off 0
  | .brzp off => 0x0600#16 ||| place off 0
  | .brnzp off => 0x0E00#16 ||| place off 0
  | .brBare off => 0x0E00#16 ||| place off 0

/-- A row of opcode_table.json of kind "instruction" or "reserved": the decode pair of R101, and the
table's `ignored_bits`, the bits the core does not decode (R97); of the reserved row bits 11..0, since 1101 is
reserved "whatever `instr[11:0]` holds" (R98). -/
structure OpcodeRow where
  mnemonic : String
  mask : Word
  pattern : Word
  ignored : Word
  deriving DecidableEq, Repr

/-- The nineteen rows of opcode_table.json that partition all 65536 words (R101). -/
def opcodeRows : List OpcodeRow :=
  [ ⟨"ADD", 0xF020#16, 0x1000#16, 0x0018#16⟩,
    ⟨"ADD", 0xF020#16, 0x1020#16, 0x0000#16⟩,
    ⟨"AND", 0xF020#16, 0x5000#16, 0x0018#16⟩,
    ⟨"AND", 0xF020#16, 0x5020#16, 0x0000#16⟩,
    ⟨"NOT", 0xF000#16, 0x9000#16, 0x003F#16⟩,
    ⟨"BR", 0xF000#16, 0x0000#16, 0x0000#16⟩,
    ⟨"JMP", 0xF000#16, 0xC000#16, 0x0E3F#16⟩,
    ⟨"JSR", 0xF800#16, 0x4800#16, 0x0000#16⟩,
    ⟨"JSRR", 0xF800#16, 0x4000#16, 0x063F#16⟩,
    ⟨"LD", 0xF000#16, 0x2000#16, 0x0000#16⟩ ] ++
  [ ⟨"LDI", 0xF000#16, 0xA000#16, 0x0000#16⟩,
    ⟨"LDR", 0xF000#16, 0x6000#16, 0x0000#16⟩,
    ⟨"LEA", 0xF000#16, 0xE000#16, 0x0000#16⟩,
    ⟨"ST", 0xF000#16, 0x3000#16, 0x0000#16⟩,
    ⟨"STI", 0xF000#16, 0xB000#16, 0x0000#16⟩,
    ⟨"STR", 0xF000#16, 0x7000#16, 0x0000#16⟩,
    ⟨"RTI", 0xF000#16, 0x8000#16, 0x0FFF#16⟩,
    ⟨"TRAP", 0xF000#16, 0xF000#16, 0x0F00#16⟩,
    ⟨"RESERVED", 0xF000#16, 0xD000#16, 0x0FFF#16⟩ ]

/-- A word is an instruction of a row when `(w & mask) = match` (R101). -/
def OpcodeRow.covers (row : OpcodeRow) (w : Word) : Prop := w &&& row.mask = row.pattern

/-- The mnemonic of an instruction's row in opcode_table.json, letter for letter. -/
def Instr.mnemonic : Instr → String
  | .addReg _ _ _ | .addImm _ _ _ => "ADD"
  | .andReg _ _ _ | .andImm _ _ _ => "AND"
  | .not _ _ => "NOT"
  | .br _ _ _ _ => "BR"
  | .jmp _ => "JMP"
  | .jsr _ => "JSR"
  | .jsrr _ => "JSRR"
  | .ld _ _ => "LD"
  | .ldi _ _ => "LDI"
  | .ldr _ _ _ => "LDR"
  | .lea _ _ => "LEA"
  | .st _ _ => "ST"
  | .sti _ _ => "STI"
  | .str _ _ _ => "STR"
  | .rti => "RTI"
  | .trap _ => "TRAP"
  | .reserved => "RESERVED"
  | .ret => "RET"
  | .getc => "GETC"
  | .out => "OUT"
  | .puts => "PUTS"
  | .input => "IN"
  | .putsp => "PUTSP"
  | .halt => "HALT"
  | .brn _ => "BRn"
  | .brz _ => "BRz"
  | .brp _ => "BRp"
  | .brnz _ => "BRnz"
  | .brnp _ => "BRnp"
  | .brzp _ => "BRzp"
  | .brnzp _ => "BRnzp"
  | .brBare _ => "BR__bare"

end Sys2Proof
end

