-- ==== Sys2Proof/Config.lean ====
section
/-! DEFINITION. What the spec leaves to the implementation (00_scope.md R5, the table of open parameters
in 92_eei_decisions.md). `ORIGIN` and `OS_IMAGE` are launch data of the host and stand in `State.launch`;
`ILLEGAL_OPCODE_VECTOR` has the value the rules give it (`Machine.illegalOpcodeVector`). -/

namespace Sys2Proof

/-- `LEA_SETS_CC`: whether LEA writes N, Z, P. DOC00 does not say and the spec leaves the parameter OPEN
(R174, D8), so it is a free value with no body: whatever is proved holds for both values. Log entry 5. -/
opaque Config.leaSetsCC : Bool

/-- `GPR_RESET`, the content of R0 to R7 after Reload: "0x0000 for R0 to R7, this spec's choice" (R5, R39,
D14). Log entry 6, DESIGN CHOICE. -/
def Config.gprReset : Word := 0x0000#16

/-- The origin before any object image has been loaded. The spec leaves `ORIGIN` open (R5, D17) and uses
0x3000 in every scenario. Log entry 7, DESIGN CHOICE. -/
def Config.defaultOrigin : Word := 0x3000#16

/-- What a cell that no list of a memory names reads as: Reset memory is "zero all memory" (R252).
Log entry 8. -/
def Config.unlistedWord : Word := 0x0000#16

end Sys2Proof
end

