-- ==== Sys2Proof/Machine/State.lean ====
section
/-! DEFINITION. The machine's state as plain data (10_state.md), its reset value, and the reasons a step can
stop. Every piece of state of 10_state.md has one home here; the device registers are cells of the memory
(R34). -/

namespace Sys2Proof.Machine

/-- The privilege mode, `psr.mode`: 1 is user, 0 is supervisor (R24, R26). -/
inductive Mode where
  | user
  | supervisor
  deriving DecidableEq, Repr

/-- The Processor Status Register, "held as its five fields" (R25). The three flags are independent bits:
they are not always one-hot (R30). -/
structure PSR where
  mode : Mode
  pl : Priority
  n : Bool
  z : Bool
  p : Bool
  deriving DecidableEq, Repr

/-- The interrupt latch, "A triple `(asserted, priority, vector8)`" (R32). -/
structure IrqLatch where
  asserted : Bool
  pl : Priority
  vec : Vector8
  deriving DecidableEq, Repr

/-- One listed cell of memory: an address and the 16-bit word there. The word is the only addressable unit
(R50), so a cell holds a word and there is no byte order (R64). Log entry 1. -/
abbrev Cell := Nat × Word

/-- The memory array of 2^16 words (R33), as the list of the cells that differ from
`Config.unlistedWord`. -/
structure Memory where
  cells : List Cell
  deriving DecidableEq, Repr

/-- The canonical form of a memory: addresses strictly rising and inside the address space of R50, and no
entry equal to what an unlisted address reads as. -/
abbrev Memory.wf (m : Memory) : Prop :=
  m.cells.Pairwise (fun c d => c.1 < d.1) ∧ ∀ c ∈ m.cells, c.1 < 2 ^ 16 ∧ c.2 ≠ Config.unlistedWord

/-- An object image: its origin (word 0) and the words placed from there on (R76, R114). -/
structure ObjectImage where
  origin : Word
  words : List Word
  deriving DecidableEq, Repr

/-- What the host keeps of a launch (R37): the object image last loaded, whose origin is `ORIGIN`, and the
parameter `OS_IMAGE`, a finite map from addresses to words (R5). No cycle reads or changes it. -/
structure Launch where
  image : ObjectImage
  osImage : List (Word × Word)
  deriving DecidableEq, Repr

/-- The whole state: 10_state.md R20 to R37 and the display output of R63. -/
structure State where
  /-- R0 to R7 (R20); R6 is the active stack pointer, R7 the link. -/
  regs : Vector Word 8
  /-- The program counter (R22). -/
  pc : Word
  /-- The processor status register (R24). -/
  psr : PSR
  /-- `saved_ssp`, the supervisor stack pointer while in user mode (R31). -/
  savedSsp : Word
  /-- `saved_usp`, the user stack pointer while in supervisor mode (R31). -/
  savedUsp : Word
  /-- The interrupt latch (R32). -/
  irq : IrqLatch
  /-- The memory array, the five device cells among it (R33, R34). -/
  mem : Memory
  /-- The bytes emitted to the display sink, oldest first (R63). -/
  display : List Byte
  /-- The host's breakpoint set (R36), addresses strictly rising so that equal sets are equal lists. -/
  breakpoints : List Word
  /-- The host's launch data (R37). -/
  launch : Launch
  deriving DecidableEq, Repr

/-- Why a step stops the machine. -/
inductive Fault where
  /-- Raised by `step` alone, when the clock-enable bit `mem[0xFFFE][15]` is 0: "while it is 0 the core
  performs no cycle" (R35) and the core "is stuck while it is 0" (R262). Safe: it is the spec's own halted
  state, and nothing changes in it. -/
  | halted
  deriving DecidableEq, Repr

/-- Why an instruction is given no meaning. -/
inductive Refusal where
  /-- Raised by an arm of `exec` whose instruction has no meaning yet. No arm of this model raises it.
  Safe. -/
  | notModelled (mnemonic : String)
  deriving DecidableEq, Repr

/-- The condition codes, the mode and the priority after Reload: "user, PL0, flags cleared" (R39). -/
def PSR.reset : PSR := { mode := .user, pl := 0#3, n := false, z := false, p := false }

/-- The launch state of R254 that no program has touched: Reset memory with an empty `OS_IMAGE`, then Reload
of an image of no words at the default origin (R39, R250, R252). The clock-enable bit is 0 (R252): the core
is halted until the host starts it. Log entries 6 to 9 name what the spec leaves open here. -/
def State.reset : State where
  regs := Vector.replicate 8 Config.gprReset
  pc := Config.defaultOrigin
  psr := PSR.reset
  savedSsp := 0x3000#16
  savedUsp := 0x0000#16
  irq := { asserted := false, pl := 0#3, vec := 0#8 }
  mem := { cells := [] }
  display := []
  breakpoints := []
  launch := { image := { origin := Config.defaultOrigin, words := [] }, osImage := [] }

end Sys2Proof.Machine
end

