-- ==== Sys2Proof/Machine/Devices.lean ====
section
/-! DEFINITION. The addresses and bits the hardware fixes (20_memory.md R52, R56 to R60) and the two vector
tables (R77, R201, R209). -/

namespace Sys2Proof.Machine

/-- KBSR, keyboard status: bit 15 ready, bit 14 interrupt-enable (R56, C2). -/
def kbsr : Word := 0xFE00#16

/-- KBDR, keyboard data: the latched byte (R57). -/
def kbdr : Word := 0xFE02#16

/-- DSR, display status: bit 15 ready (R58). -/
def dsr : Word := 0xFE04#16

/-- DDR, display data: a write transmits a byte (R59). -/
def ddr : Word := 0xFE06#16

/-- MCR, machine control: bit 15 clock-enable (R60). -/
def mcr : Word := 0xFFFE#16

/-- Bit 15 of a device cell: ready in KBSR and DSR, clock-enable in MCR. -/
def bit15 : Word := 0x8000#16

/-- The priority of the keyboard's interrupt (R62, R209). -/
def keyboardPriority : Priority := 4#3

/-- The vector of the keyboard's interrupt (R62, R209). -/
def keyboardVector : Vector8 := 0x80#8

/-- The vector of the privilege-violation exception (R201). -/
def privilegeViolationVector : Vector8 := 0x00#8

/-- `ILLEGAL_OPCODE_VECTOR`: 0x01, "this spec's choice" (R5, R201, D2). Log entry 10. -/
def illegalOpcodeVector : Vector8 := 0x01#8

/-- The cell that holds the handler address of `TRAP v`: `zext_8(v)`, 0x0000 to 0x00FF (R77). -/
def trapVectorCell (v : Vector8) : Word := v.setWidth 16

/-- The cell that holds the handler address of exception or interrupt vector `v`: `0x0100 + zext_8(v)`
(R77). -/
def interruptVectorCell (v : Vector8) : Word := 0x0100#16 + v.setWidth 16

end Sys2Proof.Machine
end

