-- ==== Sys2Proof/Machine/Flags.lean ====
section
/-! DEFINITION. The condition codes and the PSR as a word (10_state.md R24 to R30): every flag computation of
the machine, the branch condition that reads the flags, and the two functions between the five fields and the
16-bit composite. -/

namespace Sys2Proof.Machine

/-- `setcc(v)` on the PSR: N, Z, P from the signed reading of `v`, exactly one of them 1 (R28). -/
def PSR.setcc (q : PSR) (v : Word) : PSR :=
  { q with n := v.getLsbD 15, z := v == 0#16, p := !v.getLsbD 15 && v != 0#16 }

/-- `setcc(v)` where `writes` is true and no change where it is false, flag by flag, so that the mode and the
priority do not depend on `writes`; for LEA (R174). -/
def PSR.setccIf (writes : Bool) (q : PSR) (v : Word) : PSR :=
  { q with
    n := bif writes then (q.setcc v).n else q.n
    z := bif writes then (q.setcc v).z else q.z
    p := bif writes then (q.setcc v).p else q.p }

/-- BR's condition on the flags as they are, one-hot or not (R160, R30). -/
def PSR.taken (q : PSR) (n z p : Bool) : Bool :=
  (n && q.n) || (z && q.z) || (p && q.p)

/-- The mode as PSR bit 15: "1 = user, 0 = supervisor" (R24). -/
def Mode.bit : Mode → BitVec 1
  | .user => 1#1
  | .supervisor => 0#1

/-- `PSRword()`: `(psr.mode << 15) | (psr.pl << 8) | (psr.n << 2) | (psr.z << 1) | psr.p`, bits 14..11 and
7..3 zero (R25, D18). -/
def PSR.word (q : PSR) : Word :=
  q.mode.bit.setWidth 16 <<< 15 ||| q.pl.setWidth 16 <<< 8 ||| (BitVec.ofBool q.n).setWidth 16 <<< 2 |||
    (BitVec.ofBool q.z).setWidth 16 <<< 1 ||| (BitVec.ofBool q.p).setWidth 16

/-- `PSRload(w)`: the five fields of `w`, its other bits ignored, the flags taken as they are (R25). -/
def PSR.ofWord (w : Word) : PSR where
  mode := if w.getLsbD 15 then .user else .supervisor
  pl := w.extractLsb' 8 3
  n := w.getLsbD 2
  z := w.getLsbD 1
  p := w.getLsbD 0

end Sys2Proof.Machine
end

