-- ==== Sys2Proof/Machine/Ops.lean ====
section
/-! DEFINITION. The named operations over registers and memory: the plain array, the address decoder
(20_memory.md R53 to R55), the stack (00_scope.md R10), the stack switch (60_exceptions.md R208), taking an
exception or an interrupt (R204, R213), and the return from one (44_system.md R182). -/

namespace Sys2Proof.Machine

/-! ## One field at a time -/

/-- `pc <- target` (R9). -/
def State.setPc (s : State) (target : Word) : State := { s with pc := target }

/-- Write of the whole PSR. -/
def State.setPsr (s : State) (q : PSR) : State := { s with psr := q }

/-- `psr.mode <- m`. -/
def State.setMode (s : State) (m : Mode) : State := { s with psr := { s.psr with mode := m } }

/-- Write of the shadow slot `saved_ssp`. -/
def State.setSavedSsp (s : State) (v : Word) : State := { s with savedSsp := v }

/-- Write of the shadow slot `saved_usp`. -/
def State.setSavedUsp (s : State) (v : Word) : State := { s with savedUsp := v }

/-- Write of the interrupt latch. -/
def State.setIrq (s : State) (l : IrqLatch) : State := { s with irq := l }

/-- Replacement of the memory array. -/
def State.setMem (s : State) (m : Memory) : State := { s with mem := m }

/-- `DisplayByte(b)`: append `b` to the display output (R63). -/
def State.displayByte (s : State) (b : Byte) : State := { s with display := s.display ++ [b] }

/-- Replacement of the breakpoint set (R36). -/
def State.setBreakpoints (s : State) (bs : List Word) : State := { s with breakpoints := bs }

/-- Replacement of the host's launch data (R37). -/
def State.setLaunch (s : State) (l : Launch) : State := { s with launch := l }

/-! ## General registers -/

/-- `x[i]`, read of a general register; no register is hardwired (R20). -/
def State.reg (s : State) (r : RegNum) : Word := s.regs[r.toNat]'r.isLt

/-- `x[i] <- v`, which touches no flag (R9, R20). -/
def State.setReg (s : State) (r : RegNum) (v : Word) : State :=
  { s with regs := s.regs.set r.toNat v r.isLt }

/-- `setcc(v)` (R28). -/
def State.setcc (s : State) (v : Word) : State := s.setPsr (s.psr.setcc v)

/-- Write of a destination register together with the condition codes (R29). -/
def State.writeResult (s : State) (dr : RegNum) (v : Word) : State := (s.setReg dr v).setcc v

/-- The fetch step's increment, `pc <- pc + 1` modulo 2^16 (R142). -/
def State.advance (s : State) : State := s.setPc (s.pc + 1#16)

/-! ## The memory array -/

/-- The word at address `k` of a list of cells with rising addresses. -/
def lookupCell (k : Nat) : List Cell → Word
  | [] => Config.unlistedWord
  | c :: rest =>
    if c.1 < k then lookupCell k rest
    else if c.1 = k then c.2
    else Config.unlistedWord

/-- The list with the word at address `k` replaced, kept in canonical form: a word equal to what an unlisted
address reads as is not listed. -/
def storeCell (k : Nat) (v : Word) : List Cell → List Cell
  | [] => if v = Config.unlistedWord then [] else [(k, v)]
  | c :: rest =>
    if c.1 < k then c :: storeCell k v rest
    else
      let above := (c :: rest).dropWhile (fun d => d.1 ≤ k)
      if v = Config.unlistedWord then above else (k, v) :: above

/-- `mem[a]` (R33). -/
def Memory.read (m : Memory) (a : Word) : Word := lookupCell a.toNat m.cells

/-- `mem[a] <- v` (R33). -/
def Memory.write (m : Memory) (a v : Word) : Memory := { cells := storeCell a.toNat v m.cells }

/-- Plain stores of a list of addressed words, in order. -/
def Memory.writeAll (m : Memory) : List (Word × Word) → Memory
  | [] => m
  | c :: rest => (m.write c.1 c.2).writeAll rest

/-- The words of an image placed from address `a` on, addresses wrapping (R76). -/
def Memory.writeFrom (m : Memory) (a : Word) : List Word → Memory
  | [] => m
  | w :: rest => (m.write a w).writeFrom (a + 1#16) rest

/-! ## The three access primitives -/

/-- `RawRead(a)`: the cell, with no device side effect (R53). -/
def State.rawRead (s : State) (a : Word) : Word := s.mem.read a

/-- A plain store `mem[a] <- v`, with no device side effect (R9, R75). -/
def State.rawWrite (s : State) (a v : Word) : State := s.setMem (s.mem.write a v)

/-- The side effect of `MemRead`: a read of KBDR clears KBSR's ready bit and keeps its other bits (R54). -/
def State.afterMemRead (s : State) (a : Word) : State :=
  if a = kbdr then s.rawWrite kbsr (s.rawRead kbsr &&& 0x7FFF#16) else s

/-- `MemRead(a, 1)`: the word at `a` through the address decoder, and the state after it (R54). -/
def State.memRead (s : State) (a : Word) : Word × State := (s.rawRead a, s.afterMemRead a)

/-- `MemWrite(a, 1, v)`: the whole word is stored, and a write of DDR emits its low byte and sets DSR's ready
bit (R55, R59, D11, D13). -/
def State.memWrite (s : State) (a v : Word) : State :=
  let stored := s.rawWrite a v
  if a = ddr then
    let shown := stored.displayByte (v.extractLsb' 0 8)
    shown.rawWrite dsr (shown.rawRead dsr ||| bit15)
  else stored

/-- The clock-enable bit, `mem[0xFFFE][15]` (R35). -/
def State.clockEnabled (s : State) : Bool := (s.rawRead mcr).getLsbD 15

/-! ## The stack -/

/-- `push(v)`: `x[6] <- x[6] - 1`, then `MemWrite(x[6], 1, v)` (R10, D1). -/
def State.push (s : State) (v : Word) : State :=
  let sp := s.reg 6#3 - 1#16
  (s.setReg 6#3 sp).memWrite sp v

/-- `pop()`: `MemRead(x[6], 1)`, then `x[6] <- x[6] + 1` (R10, D1). -/
def State.pop (s : State) : Word × State :=
  let r := s.memRead (s.reg 6#3)
  (r.1, r.2.setReg 6#3 (r.2.reg 6#3 + 1#16))

/-! ## Entering and leaving system code -/

/-- `EnterSupervisor()`: `saved_usp <- x[6]; x[6] <- saved_ssp; psr.mode <- 0` (R208, D19). -/
def State.enterSupervisor (s : State) : State :=
  ((s.setSavedUsp (s.reg 6#3)).setReg 6#3 s.savedSsp).setMode .supervisor

/-- The stack switch that TRAP and both entries make, only when they come from user mode (R208). -/
def State.switchFromUser (s : State) : State :=
  match s.psr.mode with
  | .user => s.enterSupervisor
  | .supervisor => s

/-- The part exception entry and interrupt entry share: the stack switch from user mode, then the push of
the PSR as it was and of the `pc` as it stands (R204, R213, C3). -/
def State.pushFrame (s : State) : State :=
  (s.switchFromUser.push s.psr.word).push s.pc

/-- The new `pc`: the word in the cell of exception or interrupt vector `v`, read through the decoder and
taken as it is (R68, R77). -/
def State.jumpThroughVector (s : State) (v : Vector8) : State :=
  let r := s.memRead (interruptVectorCell v)
  r.2.setPc r.1

/-- Taking the exception of vector `v`, `ExceptionEntry(v)`: the saved `pc` is the faulting instruction's
own address, and of the PSR the mode alone changes (R204 to R206). -/
def State.exceptionEntry (s : State) (v : Vector8) : State :=
  s.pushFrame.jumpThroughVector v

/-- The PSR an interrupt loads: "supervisor, priority = latched priority, flags cleared" (R213). -/
def interruptPsr (l : IrqLatch) : PSR :=
  { mode := .supervisor, pl := l.pl, n := false, z := false, p := false }

/-- Taking the latched interrupt, `InterruptEntry()` (R213). -/
def State.interruptEntry (s : State) : State :=
  ((s.pushFrame.setPsr (interruptPsr s.irq)).jumpThroughVector s.irq.vec).setIrq
    { s.irq with asserted := false }

/-- The end of RTI: when the popped PSR says user, `saved_ssp <- x[6]; x[6] <- saved_usp` (R182). -/
def State.switchToUser (s : State) : State :=
  match s.psr.mode with
  | .user => (s.setSavedSsp (s.reg 6#3)).setReg 6#3 s.savedUsp
  | .supervisor => s

/-- The return from an exception or interrupt: pop the `pc`, pop the PSR, switch back to the user stack if
the popped PSR says user (R182). -/
def State.returnFromEntry (s : State) : State :=
  let first := s.pop
  let second := (first.2.setPc first.1).pop
  (second.2.setPsr (PSR.ofWord second.1)).switchToUser

end Sys2Proof.Machine
end

