-- ==== Sys2Proof/Machine/Operands.lean ====
section
/-! DEFINITION. Every operand form: the sign extensions of R8 and R94, and the three addressing modes of
R170. The `pc` of a PC-relative form is the incremented one (R142). -/

namespace Sys2Proof.Machine

/-- `sext_5(imm5)`, the second ALU operand of ADD and AND (R94). -/
def sext5 (imm5 : BitVec 5) : Word := imm5.signExtend 16

/-- `sext_6(offset6)` (R94). -/
def sext6 (offset6 : BitVec 6) : Word := offset6.signExtend 16

/-- `sext_9(PCoffset9)` (R94). -/
def sext9 (pcOffset9 : BitVec 9) : Word := pcOffset9.signExtend 16

/-- `sext_11(PCoffset11)` (R94). -/
def sext11 (pcOffset11 : BitVec 11) : Word := pcOffset11.signExtend 16

/-- PC-relative: `pc + sext_9(PCoffset9)`, of BR, LD, LDI, LEA, ST, STI (R170). -/
def State.pcRelative (s : State) (pcOffset9 : BitVec 9) : Word := s.pc + sext9 pcOffset9

/-- PC-relative with the long field: `pc + sext_11(PCoffset11)`, of JSR (R163). -/
def State.pcRelativeLong (s : State) (pcOffset11 : BitVec 11) : Word := s.pc + sext11 pcOffset11

/-- Base plus offset: `x[BaseR] + sext_6(offset6)`, of LDR and STR; the base is not changed (R170). -/
def State.baseOffset (s : State) (baseR : RegNum) (offset6 : BitVec 6) : Word :=
  s.reg baseR + sext6 offset6

/-- Indirect: the address held in the cell at `pc + sext_9(PCoffset9)`, read through the decoder, and the
state after that read; of LDI and STI (R170). -/
def State.indirect (s : State) (pcOffset9 : BitVec 9) : Word × State :=
  s.memRead (s.pcRelative pcOffset9)

end Sys2Proof.Machine
end

