-- ==== Sys2Proof/Machine/Alu.lean ====
section
/-! DEFINITION. The ALU instructions ADD, AND, NOT (41_alu.md). Each meaning starts from the state of step 1,
`pc` the instruction's own address, and makes the fetch step's increment itself (R142). -/

namespace Sys2Proof.Machine

/-- ADD, register form (R150). -/
def execAddReg (dr sr1 sr2 : RegNum) (s : State) : Host.Outcome State Fault Refusal :=
  .next (s.advance.writeResult dr (s.reg sr1 + s.reg sr2))

/-- ADD, immediate form (R151). -/
def execAddImm (dr sr1 : RegNum) (imm5 : BitVec 5) (s : State) : Host.Outcome State Fault Refusal :=
  .next (s.advance.writeResult dr (s.reg sr1 + sext5 imm5))

/-- AND, register form (R152). -/
def execAndReg (dr sr1 sr2 : RegNum) (s : State) : Host.Outcome State Fault Refusal :=
  .next (s.advance.writeResult dr (s.reg sr1 &&& s.reg sr2))

/-- AND, immediate form: the immediate is sign-extended before the AND (R153). -/
def execAndImm (dr sr1 : RegNum) (imm5 : BitVec 5) (s : State) : Host.Outcome State Fault Refusal :=
  .next (s.advance.writeResult dr (s.reg sr1 &&& sext5 imm5))

/-- NOT (R154). -/
def execNot (dr sr : RegNum) (s : State) : Host.Outcome State Fault Refusal :=
  .next (s.advance.writeResult dr (~~~(s.reg sr)))

end Sys2Proof.Machine
end

