-- ==== Sys2Proof/Machine/Control.lean ====
section
/-! DEFINITION. Control transfer: BR and its spellings, JMP, RET, JSR, JSRR (42_control.md). -/

namespace Sys2Proof.Machine

/-- The state after a BR of the given mask: taken or not, no flag written (R160). -/
def State.branch (s : State) (n z p : Bool) (pcOffset9 : BitVec 9) : State :=
  if s.psr.taken n z p then s.advance.setPc (s.advance.pcRelative pcOffset9) else s.advance

/-- The state after a call of `target`: `x[7]` receives the incremented `pc`, no flag is written
(R163, R164, R29). -/
def State.call (s : State) (target : Word) : State :=
  (s.advance.setReg 7#3 s.advance.pc).setPc target

/-- BR (R160). -/
def execBr (n z p : Bool) (pcOffset9 : BitVec 9) (s : State) : Host.Outcome State Fault Refusal :=
  .next (s.branch n z p pcOffset9)

/-- JMP (R161). -/
def execJmp (baseR : RegNum) (s : State) : Host.Outcome State Fault Refusal :=
  .next (s.advance.setPc (s.reg baseR))

/-- JSR (R163). -/
def execJsr (pcOffset11 : BitVec 11) (s : State) : Host.Outcome State Fault Refusal :=
  .next (s.call (s.advance.pcRelativeLong pcOffset11))

/-- JSRR: the target is read before `x[7]` is written, so `JSRR R7` goes to the old `x[7]` (R164, D9). -/
def execJsrr (baseR : RegNum) (s : State) : Host.Outcome State Fault Refusal :=
  .next (s.call (s.reg baseR))

/-- RET, the spelling of `JMP R7` (R162). -/
def execRet (s : State) : Host.Outcome State Fault Refusal :=
  .next (s.advance.setPc (s.reg 7#3))

/-- `BRn`, the spelling of BR with the n bit set (R111). -/
def execBrn (pcOffset9 : BitVec 9) (s : State) : Host.Outcome State Fault Refusal :=
  .next (s.branch true false false pcOffset9)

/-- `BRz` (R111). -/
def execBrz (pcOffset9 : BitVec 9) (s : State) : Host.Outcome State Fault Refusal :=
  .next (s.branch false true false pcOffset9)

/-- `BRp` (R111). -/
def execBrp (pcOffset9 : BitVec 9) (s : State) : Host.Outcome State Fault Refusal :=
  .next (s.branch false false true pcOffset9)

/-- `BRnz` (R111). -/
def execBrnz (pcOffset9 : BitVec 9) (s : State) : Host.Outcome State Fault Refusal :=
  .next (s.branch true true false pcOffset9)

/-- `BRnp` (R111). -/
def execBrnp (pcOffset9 : BitVec 9) (s : State) : Host.Outcome State Fault Refusal :=
  .next (s.branch true false true pcOffset9)

/-- `BRzp` (R111). -/
def execBrzp (pcOffset9 : BitVec 9) (s : State) : Host.Outcome State Fault Refusal :=
  .next (s.branch false true true pcOffset9)

/-- `BRnzp` (R111). -/
def execBrnzp (pcOffset9 : BitVec 9) (s : State) : Host.Outcome State Fault Refusal :=
  .next (s.branch true true true pcOffset9)

/-- The bare `BR`, the same word as `BRnzp` (R111, D22). -/
def execBrBare (pcOffset9 : BitVec 9) (s : State) : Host.Outcome State Fault Refusal :=
  .next (s.branch true true true pcOffset9)

end Sys2Proof.Machine
end

