-- ==== Sys2Proof/Machine/LoadStore.lean ====
section
/-! DEFINITION. Loads, stores and LEA (43_load_store.md). Every data and pointer access goes through the
address decoder (20_memory.md R68), in the order the rules write them (D29). -/

namespace Sys2Proof.Machine

/-- A load of `x[dr]` from `ea`, with the flags from the word loaded. -/
def State.loadFrom (s : State) (dr : RegNum) (ea : Word) : State :=
  let r := s.memRead ea
  r.2.writeResult dr r.1

/-- LD (R171). -/
def execLd (dr : RegNum) (pcOffset9 : BitVec 9) (s : State) : Host.Outcome State Fault Refusal :=
  .next (s.advance.loadFrom dr (s.advance.pcRelative pcOffset9))

/-- LDI: the pointer is read first, then the data (R172). -/
def execLdi (dr : RegNum) (pcOffset9 : BitVec 9) (s : State) : Host.Outcome State Fault Refusal :=
  let pointer := s.advance.indirect pcOffset9
  .next (pointer.2.loadFrom dr pointer.1)

/-- LDR: the address uses the base as it was (R173). -/
def execLdr (dr baseR : RegNum) (offset6 : BitVec 6) (s : State) : Host.Outcome State Fault Refusal :=
  .next (s.advance.loadFrom dr (s.advance.baseOffset baseR offset6))

/-- LEA: the address itself, no memory access; the flags only when `LEA_SETS_CC` (R174, D8). -/
def execLea (dr : RegNum) (pcOffset9 : BitVec 9) (s : State) : Host.Outcome State Fault Refusal :=
  let v := s.advance.pcRelative pcOffset9
  .next ((s.advance.setReg dr v).setPsr (s.psr.setccIf Config.leaSetsCC v))

/-- ST (R175). -/
def execSt (sr : RegNum) (pcOffset9 : BitVec 9) (s : State) : Host.Outcome State Fault Refusal :=
  .next (s.advance.memWrite (s.advance.pcRelative pcOffset9) (s.reg sr))

/-- STI: the pointer is read first, then the word is stored (R176). -/
def execSti (sr : RegNum) (pcOffset9 : BitVec 9) (s : State) : Host.Outcome State Fault Refusal :=
  let pointer := s.advance.indirect pcOffset9
  .next (pointer.2.memWrite pointer.1 (s.reg sr))

/-- STR (R177). -/
def execStr (sr baseR : RegNum) (offset6 : BitVec 6) (s : State) : Host.Outcome State Fault Refusal :=
  .next (s.advance.memWrite (s.advance.baseOffset baseR offset6) (s.reg sr))

end Sys2Proof.Machine
end

