-- ==== Sys2Proof/Machine/System.lean ====
section
/-! DEFINITION. System instructions: TRAP and its spellings, RTI, the reserved opcode (44_system.md). -/

namespace Sys2Proof.Machine

/-- The state after `TRAP v`: `x[7]` receives the incremented `pc`, user mode enters supervisor mode by the
stack switch, nothing is pushed, and the `pc` comes from cell `zext_8(v)` (R180, D25). -/
def State.trapTo (s : State) (v : Vector8) : State :=
  let linked := s.advance.setReg 7#3 s.advance.pc
  let r := linked.switchFromUser.memRead (trapVectorCell v)
  r.2.setPc r.1

/-- TRAP (R180). -/
def execTrap (trapvect8 : Vector8) (s : State) : Host.Outcome State Fault Refusal :=
  .next (s.trapTo trapvect8)

/-- RTI. In supervisor mode the return of R182; in user mode the privilege-violation exception, with the
`pc` not incremented (R183). -/
def execRti (s : State) : Host.Outcome State Fault Refusal :=
  match s.psr.mode with
  | .user => .next (s.exceptionEntry privilegeViolationVector)
  | .supervisor => .next s.advance.returnFromEntry

/-- The reserved opcode 1101: the illegal-opcode exception in both modes, with the `pc` not incremented
(R184). -/
def execReserved (s : State) : Host.Outcome State Fault Refusal :=
  .next (s.exceptionEntry illegalOpcodeVector)

/-- GETC, the spelling of `TRAP x20` (R112, R181). -/
def execGetc (s : State) : Host.Outcome State Fault Refusal := .next (s.trapTo 0x20#8)

/-- OUT, the spelling of `TRAP x21` (R112, R181). -/
def execOut (s : State) : Host.Outcome State Fault Refusal := .next (s.trapTo 0x21#8)

/-- PUTS, the spelling of `TRAP x22` (R112, R181). -/
def execPuts (s : State) : Host.Outcome State Fault Refusal := .next (s.trapTo 0x22#8)

/-- IN, the spelling of `TRAP x23` (R112, R181). -/
def execInput (s : State) : Host.Outcome State Fault Refusal := .next (s.trapTo 0x23#8)

/-- PUTSP, the spelling of `TRAP x24` (R112, R181). -/
def execPutsp (s : State) : Host.Outcome State Fault Refusal := .next (s.trapTo 0x24#8)

/-- HALT, the spelling of `TRAP x25` (R112, R181). -/
def execHalt (s : State) : Host.Outcome State Fault Refusal := .next (s.trapTo 0x25#8)

end Sys2Proof.Machine
end

