-- ==== Sys2Proof/Machine/Cycle.lean ====
section
/-! DEFINITION. The instruction cycle (40_cycle.md R140 to R145): the exception check of step 1, the execution
of the word at `pc`, and the interrupt check of step 4 (60_exceptions.md R212). -/

namespace Sys2Proof.Machine

/-- The result of a cycle, which only the debugger operations read (R140, R232). -/
inductive CycleResult where
  | normal
  | tookTrap
  | tookInterrupt
  deriving DecidableEq, Repr

/-- The instruction word: the look of step 1 and the fetch of step 2, with no device side effect
(R53, R141, R142). -/
def State.wordAtPc (s : State) : Word := s.rawRead s.pc

/-- Step 1: the vector of the exception that the word about to be fetched raises in mode `m`, if any: the
reserved opcode in both modes, RTI in user mode (R140, R141, R201). -/
def exceptionCheck (w : Word) (m : Mode) : Option Vector8 :=
  if opcodeOf w = 0b1101#4 then some illegalOpcodeVector
  else if opcodeOf w = 0b1000#4 ∧ m = .user then some privilegeViolationVector
  else none

/-- The arbiter's test: `irq.asserted = 1 and irq.pl > psr.pl` (R145, R212). -/
def State.interruptEligible (s : State) : Bool := s.irq.asserted && decide (s.psr.pl < s.irq.pl)

/-- Step 4, the interrupt check; a request that fails the test is left as it is (R145, R212). -/
def State.interruptCheck (s : State) : State × CycleResult :=
  if s.interruptEligible then (s.interruptEntry, .tookInterrupt) else (s, .normal)

/-- One instruction cycle and its result. The meanings of the reserved word and of RTI in user mode take
their exception themselves, at the `pc` of step 1; a cycle that takes one ends there, with no step 4
(R140, R141, R207). -/
def State.cycle (s : State) : Host.Outcome (State × CycleResult) Fault Refusal :=
  match exec (decode s.wordAtPc) s with
  | .next t =>
    match exceptionCheck s.wordAtPc s.psr.mode with
    | some _ => .next (t, .tookTrap)
    | none => .next t.interruptCheck
  | .fault f => .fault f
  | .refused r => .refused r

/-- The core's step when the clock is enabled: one cycle, its result dropped. -/
def State.cycleState (s : State) : Host.Outcome State Fault Refusal :=
  match s.cycle with
  | .next r => .next r.1
  | .fault f => .fault f
  | .refused r => .refused r

/-- The clock-enable bit set and MCR's other bits kept, as `run` and the step operations do before their
first cycle (R228, D26). -/
def State.setClockEnable (s : State) : State := s.rawWrite mcr (s.rawRead mcr ||| bit15)

/-- The word `w` placed where the next cycle looks for its instruction, with the clock enabled so that a
cycle runs. -/
def State.placeWord (s : State) (w : Word) : State := s.setClockEnable.rawWrite s.pc w

end Sys2Proof.Machine
end

