-- ==== Sys2Proof/Machine/Step.lean ====
section
/-! DEFINITION. The core's step: one instruction cycle, gated by the clock-enable bit
(70_reset_and_hazards.md R262, 40_cycle.md R140). -/

namespace Sys2Proof.Machine

/-- One step of the core: "the core steps while the bit is 1 and is stuck while it is 0" (R262). -/
def step (s : State) : Host.Outcome State Fault Refusal :=
  bif s.clockEnabled then s.cycleState else .fault .halted

/-- The instruction of `nbits` bits `w` (its bits above `nbits` zero) where `step` fetches next: the cell at
`pc`, with the clock-enable bit set. It stands for the host's load of a program and its `run` (log entry 9). -/
def State.withFetchWord (s : State) (nbits w : Nat) : State :=
  s.placeWord (BitVec.ofNat 16 (w % 2 ^ nbits))

end Sys2Proof.Machine
end

