-- ==== Sys2Proof/Machine/Keyboard.lean ====
section
/-! DEFINITION. The keyboard source's one step, `KeyEvent(b)` (20_memory.md R62, 60_exceptions.md R210). It
acts only between two cycles (00_scope.md R4). -/

namespace Sys2Proof.Machine

/-- The byte latched in KBDR and the ready bit of KBSR set, whether or not an interrupt is requested
(R62, D12). -/
def State.latchKey (s : State) (b : Byte) : State :=
  let latched := s.rawWrite kbdr (b.setWidth 16)
  latched.rawWrite kbsr (latched.rawRead kbsr ||| bit15)

/-- The keyboard may request an interrupt: KBSR bit 14 is 1 and the current priority is below 4
(R62, R210, C2). -/
def State.keyRequests (s : State) : Bool :=
  (s.rawRead kbsr).getLsbD 14 && decide (s.psr.pl < keyboardPriority)

/-- `KeyEvent(b)` (R62): the request rewrites the whole latch (R211). -/
def State.keyEvent (s : State) (b : Byte) : State :=
  let t := s.latchKey b
  if t.keyRequests then
    t.setIrq { asserted := true, pl := keyboardPriority, vec := keyboardVector }
  else t

end Sys2Proof.Machine
end

