-- ==== Sys2Proof/Machine/Reset.lean ====
section
/-! DEFINITION. Loading an object image (20_memory.md R76) and the four reset modes of the host
(70_reset_and_hazards.md R250 to R253). They act between cycles and have no device side effect. -/

namespace Sys2Proof.Machine

/-- A packed sequence of words as an object image: "Word 0 is origin; words 1..N are the program" (R114).
The empty sequence has no word 0 and is no image. -/
def ObjectImage.ofWords : List Word → Option ObjectImage
  | [] => none
  | origin :: words => some { origin, words }

/-- The image copied into memory from its origin on, addresses wrapping (R76). -/
def State.loadImage (s : State) (img : ObjectImage) : State :=
  s.setMem (s.mem.writeFrom img.origin img.words)

/-- `ORIGIN`: word 0 of the object image last loaded (R5, D17). -/
def State.origin (s : State) : Word := s.launch.image.origin

/-- Reload: the full reset (R250, D14, D15). The memory outside the image, the display output and the
breakpoint set keep their values. -/
def State.reload (s : State) (img : ObjectImage) : State :=
  let loaded := (s.loadImage img).setLaunch { s.launch with image := img }
  { loaded with
    regs := Vector.replicate 8 Config.gprReset
    pc := img.origin
    psr := PSR.reset
    savedSsp := 0x3000#16
    savedUsp := 0x0000#16
    irq := { s.irq with asserted := false } }

/-- Restart: "reset PC to origin only" (R251, D27). -/
def State.restart (s : State) : State := s.setPc s.origin

/-- Reset memory: every cell zero, then the words of `OS_IMAGE` (R252). -/
def State.resetMemory (s : State) : State :=
  s.setMem (({ cells := [] } : Memory).writeAll s.launch.osImage)

/-- Randomise memory: every cell takes the word that `draw` gives it (a cell that `draw` does not name takes
0), then the words of `OS_IMAGE` (R253). The draw is an argument under no law, so a claim about it holds for
every content (D30). -/
def State.randomiseMemory (s : State) (draw : List (Word × Word)) : State :=
  s.setMem ((({ cells := [] } : Memory).writeAll draw).writeAll s.launch.osImage)

end Sys2Proof.Machine
end

