-- ==== Sys2Proof/Machine/Inspect.lean ====
section
/-! DEFINITION. The host's inspection and mutation operations (60_exceptions.md R234, 10_state.md R40), the
breakpoint set (R36), and everything that may act between two cycles of the core (00_scope.md R4). -/

namespace Sys2Proof.Machine

/-- Get memory by address: `RawRead` (R75). -/
def State.hostGetMem (s : State) (a : Word) : Word := s.rawRead a

/-- Set memory by address, with no device side effect (R75, D21). -/
def State.hostSetMem (s : State) (a v : Word) : State := s.rawWrite a v

/-- Get a register by index (R234). -/
def State.hostGetReg (s : State) (r : RegNum) : Word := s.reg r

/-- Set a register by index; the flags are not touched (R234). -/
def State.hostSetReg (s : State) (r : RegNum) (v : Word) : State := s.setReg r v

/-- Get the PC (R234). -/
def State.hostGetPc (s : State) : Word := s.pc

/-- Set the PC (R234). -/
def State.hostSetPc (s : State) (v : Word) : State := s.setPc v

/-- Get the PSR, `PSRword()` (R234). -/
def State.hostGetPsr (s : State) : Word := s.psr.word

/-- Set the PSR, `PSRload(w)`; no stack pointer moves even if the mode changes (R234, D21). -/
def State.hostSetPsr (s : State) (w : Word) : State := s.setPsr (PSR.ofWord w)

/-- The set of breakpoints as a rising list, with `a` put in. -/
def insertAddress (a : Word) : List Word → List Word
  | [] => [a]
  | b :: rest =>
    if a < b then a :: b :: rest
    else if a = b then b :: rest
    else b :: insertAddress a rest

/-- Add a breakpoint (R234). -/
def State.addBreakpoint (s : State) (a : Word) : State := s.setBreakpoints (insertAddress a s.breakpoints)

/-- Remove a breakpoint (R234). -/
def State.removeBreakpoint (s : State) (a : Word) : State :=
  s.setBreakpoints (s.breakpoints.filter (fun b => b != a))

/-- Clear the breakpoints (R234). -/
def State.clearBreakpoints (s : State) : State := s.setBreakpoints []

/-- Cancel a run: "setting the MCR clock-enable bit to zero" (R228, R233). -/
def State.clearClockEnable (s : State) : State := s.rawWrite mcr (s.rawRead mcr &&& 0x7FFF#16)

/-- What the keyboard source and the host may do between two cycles (R4). -/
inductive Action where
  | key (b : Byte)
  | setMem (a v : Word)
  | setReg (r : RegNum) (v : Word)
  | setPc (v : Word)
  | setPsr (w : Word)
  | addBreakpoint (a : Word)
  | removeBreakpoint (a : Word)
  | clearBreakpoints
  | cancelRun
  | reload (img : ObjectImage)
  | restart
  | resetMemory
  | randomiseMemory (draw : List (Word × Word))
  deriving DecidableEq, Repr

/-- One action on the state; none of them is a cycle of the core. -/
def State.act (s : State) : Action → State
  | .key b => s.keyEvent b
  | .setMem a v => s.hostSetMem a v
  | .setReg r v => s.hostSetReg r v
  | .setPc v => s.hostSetPc v
  | .setPsr w => s.hostSetPsr w
  | .addBreakpoint a => s.addBreakpoint a
  | .removeBreakpoint a => s.removeBreakpoint a
  | .clearBreakpoints => s.clearBreakpoints
  | .cancelRun => s.clearClockEnable
  | .reload img => s.reload img
  | .restart => s.restart
  | .resetMemory => s.resetMemory
  | .randomiseMemory draw => s.randomiseMemory draw

/-- The actions of one gap between two cycles, in order. -/
def State.actAll (s : State) (as : List Action) : State := as.foldl State.act s

end Sys2Proof.Machine
end

