-- ==== Sys2Proof/Machine/RunControl.lean ====
section
/-! DEFINITION. The host's run control: `run`, `stepIn`, `stepOver`, `stepOut` and the call depth that the last
two track (60_exceptions.md R227 to R232). A loop runs under a SCHEDULE: one list of actions for the gap after
each of its cycles. It is plain data over which a claim quantifies (U21), and its length bounds the cycles, since
a run has "No intrinsic timeout" (R228). -/

namespace Sys2Proof.Machine

/-- What an operation of the host's run control ends with: whether it stopped of itself, or the schedule
ended first, and the state then. -/
structure RunEnd where
  stopped : Bool
  state : State
  deriving DecidableEq, Repr

/-- What the word at `pc` adds to the call depth: `JSR/JSRR/TRAP` add 1, `RET/RTI` subtract 1 (R232). -/
def callDelta (w : Word) : Int :=
  if opcodeOf w = 0b0100#4 ∨ opcodeOf w = 0b1111#4 then 1
  else if (opcodeOf w = 0b1100#4 ∧ fieldBase w = 7#3) ∨ opcodeOf w = 0b1000#4 then -1
  else 0

/-- The call depth after a cycle that began at word `w`: an entry adds 1, and a word that took an exception
counts as no call and no return (R232, D33). -/
def depthAfter (depth : Int) (w : Word) : CycleResult → Int
  | .normal => depth + callDelta w
  | .tookTrap => depth + 1
  | .tookInterrupt => depth + callDelta w + 1

/-- The test after each cycle of a loop: the clock is disabled or `pc` is in the breakpoint set
(R227, R228, D20). -/
def State.loopStops (s : State) : Bool := !s.clockEnabled || s.breakpoints.contains s.pc

/-- Cycles until the loop stops, the depth (where one is tracked) reaches zero, or the schedule ends. The
clock is looked at before every cycle too, since the host may have cleared it in the gap (R228, R262). -/
def runLoop (depth : Option Int) : List (List Action) → State → Host.Outcome RunEnd Fault Refusal
  | [], s => .next { stopped := false, state := s }
  | gap :: rest, s =>
    bif s.clockEnabled then
      match s.cycle with
      | .next r =>
        let depth' := depth.map (fun d => depthAfter d s.wordAtPc r.2)
        if r.1.loopStops ∨ depth'.any (fun d => decide (d ≤ 0)) then
          .next { stopped := true, state := r.1 }
        else runLoop depth' rest (r.1.actAll gap)
      | .fault f => .fault f
      | .refused r => .refused r
    else .next { stopped := true, state := s }

/-- `run`: set clock-enable, then cycles until the clock is disabled or `pc` is in the breakpoint set
(R228). -/
def State.run (s : State) (schedule : List (List Action)) : Host.Outcome RunEnd Fault Refusal :=
  runLoop none schedule s.setClockEnable

/-- `stepIn`: set clock-enable, then exactly one cycle; breakpoints are not consulted (R229). -/
def State.stepIn (s : State) : Host.Outcome State Fault Refusal := s.setClockEnable.cycleState

/-- `stepOver`: from depth 0, until the depth is back to 0 after at least one cycle (R230, R232). Log
entry 12. -/
def State.stepOver (s : State) (schedule : List (List Action)) : Host.Outcome RunEnd Fault Refusal :=
  runLoop (some 0) schedule s.setClockEnable

/-- `stepOut`: from depth 1, until the depth is 0 (R231, R232). -/
def State.stepOut (s : State) (schedule : List (List Action)) : Host.Outcome RunEnd Fault Refusal :=
  runLoop (some 1) schedule s.setClockEnable

end Sys2Proof.Machine
end

