-- ==== Sys2Proof/Safety.lean ====
section
/-! DEFINITION. The terms that statements about the machine use: what an instruction leaves unchanged, what a
data access leaves in each cell, the invariant of the machine, and the named launch premises of
70_reset_and_hazards.md R263. -/

namespace Sys2Proof.Safety

open Sys2Proof.Machine

/-! ## What stays as it was -/

/-- Every general register outside `ds` keeps its value. -/
def KeepsRegs (ds : List RegNum) (s t : State) : Prop := ∀ r, r ∉ ds → t.reg r = s.reg r

/-- The three flags keep their values. -/
def KeepsFlags (s t : State) : Prop := t.psr.n = s.psr.n ∧ t.psr.z = s.psr.z ∧ t.psr.p = s.psr.p

/-- The mode, the priority level and the two shadow slots keep their values. -/
def KeepsPrivilege (s t : State) : Prop :=
  t.psr.mode = s.psr.mode ∧ t.psr.pl = s.psr.pl ∧ t.savedSsp = s.savedSsp ∧ t.savedUsp = s.savedUsp

/-- The interrupt latch, the breakpoint set and the host's launch data keep their values: no instruction
names them (R32, R36, R37). -/
def KeepsHostSide (s t : State) : Prop :=
  t.irq = s.irq ∧ t.breakpoints = s.breakpoints ∧ t.launch = s.launch

/-- Every cell keeps its word and the display receives nothing. -/
def KeepsMemory (s t : State) : Prop := (∀ a, t.rawRead a = s.rawRead a) ∧ t.display = s.display

/-! ## What an instruction leaves -/

/-- The flags are those of the word `v`: N when it is negative, Z when it is zero, P when it is positive, in
the signed reading (R28). -/
def FlagsOf (v : Word) (t : State) : Prop :=
  t.psr.n = decide (v.toInt < 0) ∧ t.psr.z = decide (v.toInt = 0) ∧ t.psr.p = decide (0 < v.toInt)

/-- What cell `a` holds after data reads of the cells `reads` through the address decoder: KBSR has lost
bit 15 if KBDR was among them, and every other cell is as before (R54, R67). -/
def cellAfterReads (reads : List Word) (s : State) (a : Word) : Word :=
  if a = kbsr ∧ kbdr ∈ reads then s.rawRead a &&& 0x7FFF#16 else s.rawRead a

/-- What cell `a`, which held `old a`, holds after a write of `v` to `ea` through the address decoder: a write
of DDR sets bit 15 of DSR, `ea` holds `v`, and every other cell is as before (R55, R67). -/
def cellAfterWrite (ea v : Word) (old : Word → Word) (a : Word) : Word :=
  if a = ea then v else if a = dsr ∧ ea = ddr then old a ||| 0x8000#16 else old a

/-- What the display has received after a write of `v` to `ea`: the low byte of `v` when `ea` is DDR (R59). -/
def displayAfterWrite (ea v : Word) (old : List Byte) : List Byte :=
  if ea = ddr then old ++ [v.extractLsb' 0 8] else old

/-- The supervisor stack pointer an entry pushes through: `saved_ssp` from user mode, `x[6]` from supervisor
mode (R208). -/
def entryStack (s : State) : Word :=
  match s.psr.mode with
  | .user => s.savedSsp
  | .supervisor => s.reg 6#3

/-- What `saved_usp` holds after an entry: the user's `x[6]` from user mode, its old value otherwise
(R208). -/
def entryUsp (s : State) : Word :=
  match s.psr.mode with
  | .user => s.reg 6#3
  | .supervisor => s.savedUsp

/-- What cell `a` holds after the two pushes of an entry: the PSR word at one below the supervisor stack
pointer, then the `pc` at two below it (R204, R213). -/
def cellAfterFrame (s : State) (a : Word) : Word :=
  cellAfterWrite (entryStack s - 2#16) s.pc
    (cellAfterWrite (entryStack s - 1#16) s.psr.word s.rawRead) a

/-- What the display has received after the two pushes of an entry. -/
def displayAfterFrame (s : State) : List Byte :=
  displayAfterWrite (entryStack s - 2#16) s.pc
    (displayAfterWrite (entryStack s - 1#16) s.psr.word s.display)

/-- `t` is the state after entering the handler of vector `v` from `s`, as far as exception entry and
interrupt entry agree: the registers, the shadow slots, the memory, the display and the `pc`
(R204, R213). -/
def EntersHandler (v : Vector8) (s t : State) : Prop :=
  t.reg 6#3 = entryStack s - 2#16 ∧ KeepsRegs [6#3] s t ∧
  t.savedUsp = entryUsp s ∧ t.savedSsp = s.savedSsp ∧
  (∀ a, t.rawRead a = cellAfterFrame s a) ∧ t.display = displayAfterFrame s ∧
  t.pc = cellAfterFrame s (0x0100#16 + v.setWidth 16) ∧
  t.breakpoints = s.breakpoints ∧ t.launch = s.launch

/-- `t` is the state after taking the exception of vector `v` in `s`: the handler is entered, and of the PSR
the mode alone changes (R204, R206). -/
def TakesException (v : Vector8) (s t : State) : Prop :=
  EntersHandler v s t ∧ t.psr.mode = .supervisor ∧ t.psr.pl = s.psr.pl ∧ KeepsFlags s t ∧ t.irq = s.irq

/-- `t` is `s` with the word `v` in `x[dr]`, the flags those of `v`, and the `pc` past the instruction; no
other register and nothing outside memory changes. -/
def WritesResult (dr : RegNum) (v : Word) (s t : State) : Prop :=
  t.reg dr = v ∧ KeepsRegs [dr] s t ∧ FlagsOf v t ∧ t.pc = s.pc + 1#16 ∧ KeepsPrivilege s t ∧
  KeepsHostSide s t

/-- `t` is `s` with the `pc` at `target`, and nothing else changed. -/
def OnlyMovesPc (target : Word) (s t : State) : Prop :=
  t.pc = target ∧ KeepsRegs [] s t ∧ KeepsFlags s t ∧ KeepsPrivilege s t ∧ KeepsMemory s t ∧
  KeepsHostSide s t

/-- `t` is `s` with the `pc` at `target` and the address of the next instruction in `x[7]`, and nothing else
changed. -/
def Calls (target : Word) (s t : State) : Prop :=
  t.pc = target ∧ t.reg 7#3 = s.pc + 1#16 ∧ KeepsRegs [7#3] s t ∧ KeepsFlags s t ∧ KeepsPrivilege s t ∧
  KeepsMemory s t ∧ KeepsHostSide s t

/-- `t` is `s` after data reads of the cells `reads`, as far as memory and the display go. -/
def ReadsOnly (reads : List Word) (s t : State) : Prop :=
  (∀ a, t.rawRead a = cellAfterReads reads s a) ∧ t.display = s.display

/-- `t` is `s` with the `pc` past the instruction and, after data reads of the cells `reads`, the word `v`
stored at `ea` through the address decoder; no register, flag or special register changes. -/
def Stores (reads : List Word) (ea v : Word) (s t : State) : Prop :=
  (∀ a, t.rawRead a = cellAfterWrite ea v (cellAfterReads reads s) a) ∧
  t.display = displayAfterWrite ea v s.display ∧ t.pc = s.pc + 1#16 ∧ KeepsRegs [] s t ∧
  KeepsFlags s t ∧ KeepsPrivilege s t ∧ KeepsHostSide s t

/-- `t` is `s` after `TRAP v`: the link in `x[7]`, the stack switch from user mode, supervisor mode, nothing
pushed, the `pc` from the trap vector table; the priority, the flags and the memory are as they were
(R180). -/
def EntersTrap (v : Vector8) (s t : State) : Prop :=
  t.reg 7#3 = s.pc + 1#16 ∧ t.reg 6#3 = entryStack s ∧ KeepsRegs [6#3, 7#3] s t ∧
  t.savedUsp = entryUsp s ∧ t.savedSsp = s.savedSsp ∧ t.psr.mode = .supervisor ∧
  t.psr.pl = s.psr.pl ∧ KeepsFlags s t ∧ t.pc = s.rawRead (v.setWidth 16) ∧ KeepsMemory s t ∧
  KeepsHostSide s t

/-- The PSR that RTI pops in `s`: the word above `x[6]`, as the pop of the `pc` left it (R182). -/
def poppedPsr (s : State) : PSR :=
  PSR.ofWord (cellAfterReads [s.reg 6#3] s (s.reg 6#3 + 1#16))

/-- `t` is `s` after the return of RTI in supervisor mode (R182). -/
def ReturnsFromEntry (s t : State) : Prop :=
  t.pc = s.rawRead (s.reg 6#3) ∧ t.psr = poppedPsr s ∧
  t.reg 6#3 = (if (poppedPsr s).mode = .user then s.savedUsp else s.reg 6#3 + 2#16) ∧
  t.savedSsp = (if (poppedPsr s).mode = .user then s.reg 6#3 + 2#16 else s.savedSsp) ∧
  t.savedUsp = s.savedUsp ∧ KeepsRegs [6#3] s t ∧
  ReadsOnly [s.reg 6#3, s.reg 6#3 + 1#16] s t ∧ KeepsHostSide s t

/-! ## Run control (60_exceptions.md R227 to R232) -/

/-- The loops of the host go on after a cycle that leaves `t`: the clock is enabled and `pc` is no breakpoint
(R227, R228). -/
abbrev LoopGoesOn (t : State) : Prop := t.clockEnabled = true ∧ t.pc ∉ t.breakpoints

/-- A word that counts as a call: JSR, JSRR or TRAP by its opcode bits (R232). -/
abbrev CallWord (w : Word) : Prop := w.extractLsb' 12 4 = 0b0100#4 ∨ w.extractLsb' 12 4 = 0b1111#4

/-- A word that counts as a return: JMP with BaseR = 7, or RTI, by its bits (R232). -/
abbrev ReturnWord (w : Word) : Prop :=
  (w.extractLsb' 12 4 = 0b1100#4 ∧ w.extractLsb' 6 3 = 7#3) ∨ w.extractLsb' 12 4 = 0b1000#4

/-- The call depth goes from `d` to `d'` over a cycle begun at word `w` with result `r`: a call adds 1, a return
subtracts 1, an entry adds 1, and a word that took an exception is neither call nor return (R232). -/
def DepthGoes (w : Word) (r : CycleResult) (d d' : Int) : Prop :=
  (r = .tookTrap ∧ d' = d + 1) ∨
  ∃ e : Int, ((r = .normal ∧ e = 0) ∨ (r = .tookInterrupt ∧ e = 1)) ∧
    ((CallWord w ∧ d' = d + 1 + e) ∨ (ReturnWord w ∧ d' = d - 1 + e) ∨
      (¬ CallWord w ∧ ¬ ReturnWord w ∧ d' = d + e))

/-! ## The invariant -/

/-- The invariant of the machine: memory is in its canonical form, the breakpoint set is a rising list, and a
pending request is the keyboard's, the one source there is (R209). -/
def Inv (s : State) : Prop :=
  s.mem.wf ∧ s.breakpoints.Pairwise (fun a b => a < b) ∧
  (s.irq.asserted = true → s.irq.pl = 4#3 ∧ s.irq.vec = 0x80#8)

/-! ## Launch premises (R263) -/

/-- `user_pl0`: the PSR word is 0x8000. -/
def UserPl0 (s : State) : Prop := s.psr.word = 0x8000#16

/-- `stacks_reset`. -/
def StacksReset (s : State) : Prop := s.savedSsp = 0x3000#16 ∧ s.savedUsp = 0x0000#16

/-- `regs_zero`. -/
def RegsZero (s : State) : Prop := ∀ r, s.reg r = 0x0000#16

/-- `latch_clear`. -/
def LatchClear (s : State) : Prop := s.irq.asserted = false

/-- `clock_on`. -/
def ClockOn (s : State) : Prop := s.clockEnabled = true

/-- `image_loaded(img)`. -/
def ImageLoaded (img : ObjectImage) (s : State) : Prop :=
  ∀ i (h : i < img.words.length), s.rawRead (img.origin + BitVec.ofNat 16 i) = img.words[i]

/-- `pc_at_origin`. -/
def PcAtOrigin (s : State) : Prop := s.pc = s.origin

/-- `kb_quiet`: the schedule holds no key event. -/
def KbQuiet (schedule : List (List Action)) : Prop := ∀ gap ∈ schedule, ∀ b, Action.key b ∉ gap

/-- `vectors(...)`: the named cells hold the named words. -/
def Vectors (cells : List (Word × Word)) (s : State) : Prop := ∀ c ∈ cells, s.rawRead c.1 = c.2

/-- `dsr_ready`. -/
def DsrReady (s : State) : Prop := (s.rawRead dsr).getLsbD 15 = true

end Sys2Proof.Safety
end

