-- ==== Sys2Proof/Certificates/Slice0/Obligations.lean ====
section
/-! DEFINITION. The statements for the provers. Each docstring names the sentence of the spec it formalises; a
statement that rests on a choice of the spec ("[decision ...]", "[from general knowledge, not in source]") or of
the model says so. -/

open Sys2Proof Sys2Proof.Machine Sys2Proof.Safety

/-! ## Encoding -/

/-- Words written out from the patterns of 30_encoding.md R101 (and the examples of the instruction rules)
decode to the instructions they stand for. -/
def Obligations.SpecWordsDecodeToTheirInstructions : Prop :=
  decode 0b0001_010_011_0_00_100#16 = .addReg 2#3 3#3 4#3 ∧
  decode 0b0001_000_000_1_00101#16 = .addImm 0#3 0#3 5#5 ∧
  decode 0b0101_101_110_0_00_111#16 = .andReg 5#3 6#3 7#3 ∧
  decode 0b1001_011_011_111111#16 = .not 3#3 3#3 ∧
  decode 0b0000_1_1_1_000000001#16 = .br true true true 1#9 ∧
  decode 0b1100_000_111_000000#16 = .jmp 7#3 ∧
  decode 0b0100_1_00000000011#16 = .jsr 3#11 ∧
  decode 0b0110_011_100_111111#16 = .ldr 3#3 4#3 0b111111#6 ∧
  decode 0b1011_001_000000011#16 = .sti 1#3 3#9 ∧
  decode 0b1111_0000_00100101#16 = .trap 0x25#8

/-- R95 and R96: the sixteen values of `instr[15:12]`, the one further bit of ADD, AND and opcode 0100, and that
no other bit takes part in selecting an instruction. -/
def Obligations.OpcodeAndFormBitSelectTheInstruction : Prop :=
  ∀ w : Word,
    (w.extractLsb' 12 4 = 0b0000#4 →
      decode w = .br (w.getLsbD 11) (w.getLsbD 10) (w.getLsbD 9) (w.extractLsb' 0 9)) ∧
    (w.extractLsb' 12 4 = 0b0001#4 → decode w =
      if w.getLsbD 5 then .addImm (w.extractLsb' 9 3) (w.extractLsb' 6 3) (w.extractLsb' 0 5)
      else .addReg (w.extractLsb' 9 3) (w.extractLsb' 6 3) (w.extractLsb' 0 3)) ∧
    (w.extractLsb' 12 4 = 0b0010#4 → decode w = .ld (w.extractLsb' 9 3) (w.extractLsb' 0 9)) ∧
    (w.extractLsb' 12 4 = 0b0011#4 → decode w = .st (w.extractLsb' 9 3) (w.extractLsb' 0 9)) ∧
    (w.extractLsb' 12 4 = 0b0100#4 → decode w =
      if w.getLsbD 11 then .jsr (w.extractLsb' 0 11) else .jsrr (w.extractLsb' 6 3)) ∧
    (w.extractLsb' 12 4 = 0b0101#4 → decode w =
      if w.getLsbD 5 then .andImm (w.extractLsb' 9 3) (w.extractLsb' 6 3) (w.extractLsb' 0 5)
      else .andReg (w.extractLsb' 9 3) (w.extractLsb' 6 3) (w.extractLsb' 0 3)) ∧
    (w.extractLsb' 12 4 = 0b0110#4 → decode w =
      .ldr (w.extractLsb' 9 3) (w.extractLsb' 6 3) (w.extractLsb' 0 6)) ∧
    (w.extractLsb' 12 4 = 0b0111#4 → decode w =
      .str (w.extractLsb' 9 3) (w.extractLsb' 6 3) (w.extractLsb' 0 6)) ∧
    (w.extractLsb' 12 4 = 0b1000#4 → decode w = .rti) ∧
    (w.extractLsb' 12 4 = 0b1001#4 → decode w = .not (w.extractLsb' 9 3) (w.extractLsb' 6 3)) ∧
    (w.extractLsb' 12 4 = 0b1010#4 → decode w = .ldi (w.extractLsb' 9 3) (w.extractLsb' 0 9)) ∧
    (w.extractLsb' 12 4 = 0b1011#4 → decode w = .sti (w.extractLsb' 9 3) (w.extractLsb' 0 9)) ∧
    (w.extractLsb' 12 4 = 0b1100#4 → decode w = .jmp (w.extractLsb' 6 3)) ∧
    (w.extractLsb' 12 4 = 0b1101#4 → decode w = .reserved) ∧
    (w.extractLsb' 12 4 = 0b1110#4 → decode w = .lea (w.extractLsb' 9 3) (w.extractLsb' 0 9)) ∧
    (w.extractLsb' 12 4 = 0b1111#4 → decode w = .trap (w.extractLsb' 0 8))

/-- "the 19 such rows partition all 65536 words" (R101): every word is covered by exactly one row of the table,
it decodes to an instruction of that row's mnemonic, and the decoder never answers an assembler spelling. -/
def Obligations.OpcodeTableRowsPartitionAllWords : Prop :=
  ∀ w : Word, (decode w).wellFormed = true ∧
    ∃ row ∈ opcodeRows, row.covers w ∧ row.mnemonic = (decode w).mnemonic ∧
      ∀ other ∈ opcodeRows, other.covers w → other = row

/-- "The core does not look at them" (R97, the spec's decision D6): two words of one row that differ in the row's
ignored bits alone are the same instruction. -/
def Obligations.IgnoredBitsDoNotChangeTheInstruction : Prop :=
  ∀ row ∈ opcodeRows, ∀ v w : Word, row.covers v → v &&& ~~~row.ignored = w &&& ~~~row.ignored →
    decode w = decode v

/-- Decode and encode agree: the word of a well-formed instruction decodes to it with every operand, and the word
of an assembler spelling decodes to the core instruction it stands for (R101, R111, R112). That spellings are no
instructions of the decoder's is log entry 2. -/
def Obligations.DecodeOfEncodeIsTheInstruction : Prop :=
  ∀ i : Instr, (i.wellFormed = true → decode (encode i) = i) ∧ decode (encode i) = i.canonical

/-- No decoded bit is dropped: the word encoded from what a word decodes to is that word, but for the bits its row
ignores (R97, R101). -/
def Obligations.EncodeOfDecodeKeepsEveryDecodedBit : Prop :=
  ∀ w : Word, ∀ row ∈ opcodeRows, row.covers w →
    encode (decode w) &&& ~~~row.ignored = w &&& ~~~row.ignored

/-- An assembler spelling does what the core instruction it stands for does (R111, R112, R181; the bare `br` by the
spec's decision D22), and a core instruction stands for itself. -/
def Obligations.SpellingsExecuteAsTheirCoreInstruction : Prop :=
  ∀ (i : Instr) (s : State), exec i s = exec i.canonical s ∧ i.canonical.wellFormed = true

/-! ## Condition codes, the PSR and memory -/

/-- R28: `setcc(v)` writes all three flags by bit 15 and by `v = 0`, exactly one of them becomes 1, by the sign of
the signed reading; nothing else of the PSR changes. -/
def Obligations.SetccSetsExactlyTheSignedFlag : Prop :=
  ∀ (s : State) (v : Word),
    let t := s.setcc v
    (t.psr.n = true ↔ v.getLsbD 15 = true) ∧ (t.psr.z = true ↔ v = 0x0000#16) ∧
    (t.psr.p = true ↔ v.getLsbD 15 = false ∧ v ≠ 0x0000#16) ∧ FlagsOf v t ∧
    ((t.psr.n, t.psr.z, t.psr.p) = (true, false, false) ∨ (t.psr.n, t.psr.z, t.psr.p) = (false, true, false) ∨
      (t.psr.n, t.psr.z, t.psr.p) = (false, false, true)) ∧
    t.psr.mode = s.psr.mode ∧ t.psr.pl = s.psr.pl

/-- The layout of the PSR word (R24, R25): its five fields at their bits, and loading it gives the five fields back;
a loaded word reads back with bits 14..11 and 7..3 zero (the spec's decision D18). -/
def Obligations.PsrWordAndLoadAgree : Prop :=
  (∀ q : PSR, PSR.ofWord q.word = q ∧
    (q.word.getLsbD 15 = true ↔ q.mode = .user) ∧ q.word.extractLsb' 8 3 = q.pl ∧
    q.word.getLsbD 2 = q.n ∧ q.word.getLsbD 1 = q.z ∧ q.word.getLsbD 0 = q.p) ∧
  (∀ w : Word, (PSR.ofWord w).word = w &&& 0x8707#16)

/-- R54: `MemRead` of an address gives the cell; a read of KBDR clears bit 15 of KBSR, keeps its other bits and every
other cell; a read of any other address changes nothing. -/
def Obligations.MemReadClearsKeyboardReadyAtKbdrOnly : Prop :=
  ∀ (s : State) (a : Word),
    (s.memRead a).1 = s.rawRead a ∧
    (a ≠ 0xFE02#16 → (s.memRead a).2 = s) ∧
    (a = 0xFE02#16 →
      (s.memRead a).2.rawRead 0xFE00#16 = s.rawRead 0xFE00#16 &&& 0x7FFF#16 ∧
      (∀ b, b ≠ 0xFE00#16 → (s.memRead a).2.rawRead b = s.rawRead b) ∧
      (∀ k, (s.memRead a).2.reg k = s.reg k) ∧
      (s.memRead a).2 = { s with mem := (s.memRead a).2.mem })

/-- `MemWrite` (R55; that the whole word is stored and which byte is shown are the spec's decisions D11 and D13): the
word is stored at its address; at DDR its low byte is emitted and bit 15 of DSR set; every other cell keeps its
word and nothing but memory and the display changes. -/
def Obligations.MemWriteStoresAndShowsAtDdrOnly : Prop :=
  ∀ (s : State) (a v : Word),
    (s.memWrite a v).rawRead a = v ∧
    (a ≠ 0xFE06#16 → (∀ b, b ≠ a → (s.memWrite a v).rawRead b = s.rawRead b) ∧
      (s.memWrite a v).display = s.display) ∧
    (a = 0xFE06#16 → (s.memWrite a v).rawRead 0xFE04#16 = s.rawRead 0xFE04#16 ||| 0x8000#16 ∧
      (∀ b, b ≠ a → b ≠ 0xFE04#16 → (s.memWrite a v).rawRead b = s.rawRead b) ∧
      (s.memWrite a v).display = s.display ++ [v.extractLsb' 0 8]) ∧
    s.memWrite a v = { s with mem := (s.memWrite a v).mem, display := (s.memWrite a v).display }

/-- Two memories in canonical form that read alike at every address are the same data, and a write keeps the form
(the model's representation, log entry 1). -/
def Obligations.CanonicalMemoriesThatReadAlikeAreEqual : Prop :=
  (∀ m n : Memory, m.wf → n.wf → (∀ a, m.read a = n.read a) → m = n) ∧
  (∀ (m : Memory) (a v : Word), m.wf → (m.write a v).wf)

/-- R76: an image is copied to its origin and the addresses after it, wrapping, each cell holding the last word placed
there; cells outside that range are not touched, and there is no device side effect. -/
def Obligations.ImageLoadPlacesEveryWord : Prop :=
  ∀ (s : State) (img : ObjectImage),
    (∀ i (h : i < img.words.length),
      (∀ j, i < j → j < img.words.length →
        img.origin + BitVec.ofNat 16 j ≠ img.origin + BitVec.ofNat 16 i) →
      (s.loadImage img).rawRead (img.origin + BitVec.ofNat 16 i) = img.words[i]) ∧
    (∀ a, (∀ i, i < img.words.length → a ≠ img.origin + BitVec.ofNat 16 i) →
      (s.loadImage img).rawRead a = s.rawRead a) ∧
    s.loadImage img = { s with mem := (s.loadImage img).mem }

/-! ## ALU instructions -/

/-- ADD, both forms, completes (41_alu.md R150, R151, semantics from general knowledge, G2): the sum modulo 2^16 in
`x[DR]`, the flags from it, the `pc` past the instruction, all else unchanged. -/
def Obligations.AddWritesTheSumAndItsFlags : Prop :=
  ∀ (s : State) (dr sr1 : RegNum),
    (∀ sr2 : RegNum, ∃ t, exec (.addReg dr sr1 sr2) s = .next t ∧
      WritesResult dr (s.reg sr1 + s.reg sr2) s t ∧ KeepsMemory s t) ∧
    (∀ imm5 : BitVec 5, ∃ t, exec (.addImm dr sr1 imm5) s = .next t ∧
      WritesResult dr (s.reg sr1 + imm5.signExtend 16) s t ∧ KeepsMemory s t)

/-- AND, both forms, completes (R152, R153, semantics from general knowledge, G2, G9): the bitwise and, the immediate
sign-extended first. -/
def Obligations.AndWritesTheConjunctionAndItsFlags : Prop :=
  ∀ (s : State) (dr sr1 : RegNum),
    (∀ sr2 : RegNum, ∃ t, exec (.andReg dr sr1 sr2) s = .next t ∧
      WritesResult dr (s.reg sr1 &&& s.reg sr2) s t ∧ KeepsMemory s t) ∧
    (∀ imm5 : BitVec 5, ∃ t, exec (.andImm dr sr1 imm5) s = .next t ∧
      WritesResult dr (s.reg sr1 &&& imm5.signExtend 16) s t ∧ KeepsMemory s t)

/-- NOT completes (R154, semantics from general knowledge, G2): `0xFFFF - x[SR]` in `x[DR]`. -/
def Obligations.NotWritesTheComplementAndItsFlags : Prop :=
  ∀ (s : State) (dr sr : RegNum), ∃ t, exec (.not dr sr) s = .next t ∧
    WritesResult dr (0xFFFF#16 - s.reg sr) s t ∧ KeepsMemory s t

/-! ## Control transfer -/

/-- BR completes (R160; the condition is general knowledge, G3): taken exactly when a selected flag is 1, to the
incremented `pc` plus the offset; otherwise the `pc` is past the instruction; nothing else changes. -/
def Obligations.BranchIsTakenOnASelectedFlag : Prop :=
  ∀ (s : State) (n z p : Bool) (off : BitVec 9), ∃ t, exec (.br n z p off) s = .next t ∧
    OnlyMovesPc
      (if (n = true ∧ s.psr.n = true) ∨ (z = true ∧ s.psr.z = true) ∨ (p = true ∧ s.psr.p = true)
        then s.pc + 1#16 + off.signExtend 16 else s.pc + 1#16) s t

/-- The eight branch spellings complete (R111; bare `br` by D22): each branches on the flags it names. -/
def Obligations.BranchSpellingsBranchOnTheirFlags : Prop :=
  ∀ (s : State) (off : BitVec 9),
    let goes := fun (i : Instr) (cond : Prop) => ∃ t, exec i s = .next t ∧
      ((cond ∧ OnlyMovesPc (s.pc + 1#16 + off.signExtend 16) s t) ∨ (¬ cond ∧ OnlyMovesPc (s.pc + 1#16) s t))
    goes (.brn off) (s.psr.n = true) ∧ goes (.brz off) (s.psr.z = true) ∧ goes (.brp off) (s.psr.p = true) ∧
    goes (.brnz off) (s.psr.n = true ∨ s.psr.z = true) ∧ goes (.brnp off) (s.psr.n = true ∨ s.psr.p = true) ∧
    goes (.brzp off) (s.psr.z = true ∨ s.psr.p = true) ∧
    goes (.brnzp off) (s.psr.n = true ∨ s.psr.z = true ∨ s.psr.p = true) ∧
    goes (.brBare off) (s.psr.n = true ∨ s.psr.z = true ∨ s.psr.p = true)

/-- JMP completes (R161, general knowledge, G3): the `pc` is `x[BaseR]`, and nothing else changes. -/
def Obligations.JmpGoesToTheBaseRegister : Prop :=
  ∀ (s : State) (base : RegNum), ∃ t, exec (.jmp base) s = .next t ∧ OnlyMovesPc (s.reg base) s t

/-- R162: RET is the word 0xC1C0, is JMP with BaseR = 7, and leaves `pc` at `x[7]`; it changes no flag, pops nothing
and keeps the privilege mode. -/
def Obligations.RetIsJmpThroughRegisterSeven : Prop :=
  encode .ret = 0xC1C0#16 ∧ decode 0xC1C0#16 = .jmp 7#3 ∧
  ∀ s : State, exec .ret s = exec (.jmp 7#3) s ∧
    ∃ t, exec .ret s = .next t ∧ OnlyMovesPc (s.reg 7#3) s t

/-- JSR and JSRR complete (R163, R164; the link is general knowledge, G3; the order of `JSRR R7` the spec's decision
D9): the target uses the registers as they were, `x[7]` gets the address of the next instruction, no flag
changes. -/
def Obligations.JsrAndJsrrLinkInRegisterSeven : Prop :=
  ∀ s : State,
    (∀ off : BitVec 11, ∃ t, exec (.jsr off) s = .next t ∧ Calls (s.pc + 1#16 + off.signExtend 16) s t) ∧
    (∀ base : RegNum, ∃ t, exec (.jsrr base) s = .next t ∧ Calls (s.reg base) s t)

/-! ## Loads, stores and LEA -/

/-- LD and LDR complete (R171, R173, general knowledge, G4): the word at the effective address in `x[DR]`, the flags
from it, the side effect of the read, all else unchanged. -/
def Obligations.LdAndLdrLoadTheWordAtTheirAddress : Prop :=
  ∀ (s : State) (dr : RegNum),
    (∀ off : BitVec 9, ∃ t, exec (.ld dr off) s = .next t ∧
      WritesResult dr (s.rawRead (s.pc + 1#16 + off.signExtend 16)) s t ∧
      ReadsOnly [s.pc + 1#16 + off.signExtend 16] s t) ∧
    (∀ (base : RegNum) (off : BitVec 6), ∃ t, exec (.ldr dr base off) s = .next t ∧
      WritesResult dr (s.rawRead (s.reg base + off.signExtend 16)) s t ∧
      ReadsOnly [s.reg base + off.signExtend 16] s t)

/-- LDI completes (R172, general knowledge, G4): the pointer cell is read first, then the cell it points at as that
read left it; both reads have the decoder's side effect. -/
def Obligations.LdiLoadsThroughThePointer : Prop :=
  ∀ (s : State) (dr : RegNum) (off : BitVec 9),
    let ptr := s.pc + 1#16 + off.signExtend 16
    let ea := s.rawRead ptr
    ∃ t, exec (.ldi dr off) s = .next t ∧
      WritesResult dr (cellAfterReads [ptr] s ea) s t ∧ ReadsOnly [ptr, ea] s t

/-- LEA completes for both values of `LEA_SETS_CC` (R174, G4): the address itself in `x[DR]`, no memory access; the
flags are from it when the parameter is true and unchanged when it is false (the free value of log entry 5). -/
def Obligations.LeaLoadsTheAddressItself : Prop :=
  ∀ (s : State) (dr : RegNum) (off : BitVec 9),
    let v := s.pc + 1#16 + off.signExtend 16
    ∃ t, exec (.lea dr off) s = .next t ∧
      t.reg dr = v ∧ KeepsRegs [dr] s t ∧ t.pc = s.pc + 1#16 ∧
      (Config.leaSetsCC = true → FlagsOf v t) ∧ (Config.leaSetsCC = false → KeepsFlags s t) ∧
      KeepsPrivilege s t ∧ KeepsHostSide s t ∧ KeepsMemory s t

/-- ST and STR complete (R175, R177, general knowledge, G4): `x[SR]` is stored at the effective address through the
decoder; no register and no flag changes. -/
def Obligations.StAndStrStoreAtTheirAddress : Prop :=
  ∀ (s : State) (sr : RegNum),
    (∀ off : BitVec 9, ∃ t, exec (.st sr off) s = .next t ∧
      Stores [] (s.pc + 1#16 + off.signExtend 16) (s.reg sr) s t) ∧
    (∀ (base : RegNum) (off : BitVec 6), ∃ t, exec (.str sr base off) s = .next t ∧
      Stores [] (s.reg base + off.signExtend 16) (s.reg sr) s t)

/-- STI completes (R176, general knowledge, G4): the pointer is read first, then `x[SR]` is stored where it points. -/
def Obligations.StiStoresThroughThePointer : Prop :=
  ∀ (s : State) (sr : RegNum) (off : BitVec 9),
    let ptr := s.pc + 1#16 + off.signExtend 16
    ∃ t, exec (.sti sr off) s = .next t ∧ Stores [ptr] (s.rawRead ptr) (s.reg sr) s t

/-! ## System instructions -/

/-- TRAP completes for every vector in both modes (R180; that it leaves the priority and the flags alone is the
spec's decision D25). -/
def Obligations.TrapEntersThroughTheTrapTable : Prop :=
  ∀ (s : State) (v : Vector8), ∃ t, exec (.trap v) s = .next t ∧ EntersTrap v s t

/-- The six trap spellings complete as the TRAPs of vectors 0x20 to 0x25 (R112, R181). -/
def Obligations.TrapSpellingsEnterTheirVectors : Prop :=
  ∀ s : State,
    (∃ t, exec .getc s = .next t ∧ EntersTrap 0x20#8 s t) ∧ (∃ t, exec .out s = .next t ∧ EntersTrap 0x21#8 s t) ∧
    (∃ t, exec .puts s = .next t ∧ EntersTrap 0x22#8 s t) ∧ (∃ t, exec .input s = .next t ∧ EntersTrap 0x23#8 s t) ∧
    (∃ t, exec .putsp s = .next t ∧ EntersTrap 0x24#8 s t) ∧ (∃ t, exec .halt s = .next t ∧ EntersTrap 0x25#8 s t)

/-- RTI completes in supervisor mode (R182; the pop discipline is the spec's decision D1, the stale slot D19): the
`pc` and the PSR are popped, and the stack switches back when the popped PSR says user. -/
def Obligations.RtiInSupervisorModeReturns : Prop :=
  ∀ s : State, s.psr.mode = .supervisor → ∃ t, exec .rti s = .next t ∧ ReturnsFromEntry s t

/-- RTI met in user mode is not executed (R183): the step takes the privilege-violation exception, vector 0x00, with
the address of the RTI itself as the saved `pc`; no other word raises it, and in supervisor mode none does. The place
of the frame and what of the PSR changes are the spec's decisions D1, D3 and D4. -/
def Obligations.RtiInUserModeTakesThePrivilegeViolation : Prop :=
  (∀ s : State, s.clockEnabled = true → s.psr.mode = .user → opcodeOf s.wordAtPc = 0b1000#4 →
    ∃ t, step s = .next t ∧ TakesException 0x00#8 s t ∧
      t.rawRead (t.reg 6#3) = s.pc ∧ t.reg 6#3 = s.savedSsp - 2#16) ∧
  (∀ (w : Word) (m : Mode), exceptionCheck w m = some 0x00#8 ↔ m = .user ∧ opcodeOf w = 0b1000#4)

/-- The reserved opcode takes the illegal-opcode exception in both modes with its own address saved (R184; the vector
0x01 is the spec's decision D2, log entry 10). -/
def Obligations.ReservedOpcodeTakesTheIllegalOpcodeException : Prop :=
  ∀ s : State, ∃ t, exec .reserved s = .next t ∧ TakesException 0x01#8 s t

/-- 1101 is the only illegal encoding, whatever the other twelve bits are, and it is raised in step 1, before the
fetch: the step on such a word is the exception entry from the state as it stood (R98, R141). That the entry is made
with the `pc` not incremented and ends the cycle is the spec's decisions D3 and D5 (log entry 14), and that the vector
differs from 0x00 its decision D2 (log entry 10). -/
def Obligations.OnlyOpcode1101IsIllegal : Prop :=
  (∀ w : Word, decode w = .reserved ↔ w.extractLsb' 12 4 = 0b1101#4) ∧
  (∀ (w : Word) (m : Mode), exceptionCheck w m = some illegalOpcodeVector ↔ w.extractLsb' 12 4 = 0b1101#4) ∧
  (∀ s : State, s.clockEnabled = true → s.wordAtPc.extractLsb' 12 4 = 0b1101#4 →
    step s = .next (s.exceptionEntry illegalOpcodeVector))

/-- The vector cells of TRAP, exceptions and interrupts, their ranges, that the word read is the new `pc` as it is, and
that no vector cell is a device register (R77). That an entry reads its cell after its two pushes is the order of R204
and R213, the spec's decision D29 (log entry 22). -/
def Obligations.VectorCellsGiveTheNewPc : Prop :=
  ∀ (s : State) (v : Vector8),
    (s.trapTo v).pc = s.rawRead (v.setWidth 16) ∧
    (s.exceptionEntry v).pc = s.pushFrame.rawRead (0x0100#16 + v.setWidth 16) ∧
    s.interruptEntry.pc = s.pushFrame.rawRead (0x0100#16 + s.irq.vec.setWidth 16) ∧
    (v.setWidth 16 : Word) ≤ 0x00FF#16 ∧
    0x0100#16 ≤ 0x0100#16 + (v.setWidth 16 : Word) ∧ 0x0100#16 + (v.setWidth 16 : Word) ≤ 0x01FF#16 ∧
    (∀ d ∈ [kbsr, kbdr, dsr, ddr, mcr], d ≠ v.setWidth 16 ∧ d ≠ 0x0100#16 + (v.setWidth 16 : Word))

/-! ## The cycle -/

/-- A step runs the decoded instruction: when the word at `pc` decodes to `i`, the step is `exec i` from the same
state, followed by the interrupt check of step 4 unless step 1 took an exception (R140). -/
def Obligations.StepRunsTheDecodedInstruction : Prop :=
  ∀ (s u : State) (i : Instr), s.clockEnabled = true → decode (s.rawRead s.pc) = i → exec i s = .next u →
    i.wellFormed = true ∧
    step s = .next (match exceptionCheck (s.rawRead s.pc) s.psr.mode with
      | some _ => u
      | none => u.interruptCheck.1)

/-- The core steps while the clock-enable bit is 1 and is stuck while it is 0 (R262, condition (b), for a model
without a host), and no instruction, address or data stops it otherwise (R51, R203). -/
def Obligations.CoreStepsExactlyWhileTheClockIsEnabled : Prop :=
  ∀ s : State, ((s.rawRead 0xFFFE#16).getLsbD 15 = true → ∃ t, step s = .next t) ∧
    ((s.rawRead 0xFFFE#16).getLsbD 15 = false → step s = .fault .halted)

/-- R202: whether a cycle takes an exception depends on the word at `pc` and on the mode alone. -/
def Obligations.ExceptionsDependOnWordAndModeOnly : Prop :=
  ∀ (s t : State) (r : CycleResult), s.cycle = .next (t, r) →
    (r = .tookTrap ↔ opcodeOf (s.rawRead s.pc) = 0b1101#4 ∨
      (opcodeOf (s.rawRead s.pc) = 0b1000#4 ∧ s.psr.mode = .user))

/-- A cycle that takes an exception ends with the entry (R204, R207; the spec's decisions D3 to D5): the handler of
the vector is entered from the state as it stood, no interrupt is taken and a pending request stays. -/
def Obligations.ExceptionCycleEndsWithTheEntry : Prop :=
  ∀ (s : State) (v : Vector8), s.clockEnabled = true → exceptionCheck (s.rawRead s.pc) s.psr.mode = some v →
    ∃ t, step s = .next t ∧ TakesException v s t ∧ s.cycle = .next (t, .tookTrap)

/-- R212: at step 4 the pending request is taken if and only if it is asserted at a priority above the one the
executed instruction left; otherwise the state, the request among it, is left as it is. -/
def Obligations.ArbiterTakesTheRequestAboveThePriority : Prop :=
  ∀ s u : State, s.clockEnabled = true → exceptionCheck (s.rawRead s.pc) s.psr.mode = none →
    exec (decode (s.rawRead s.pc)) s = .next u →
    (u.irq.asserted = true ∧ u.psr.pl < u.irq.pl → s.cycle = .next (u.interruptEntry, .tookInterrupt)) ∧
    (¬ (u.irq.asserted = true ∧ u.psr.pl < u.irq.pl) → s.cycle = .next (u, .normal) ∧ step s = .next u)

/-- R213 (the place of the frame is the spec's decision D1): an interrupt taken at step 4 enters the handler of the
latched vector from the state the instruction left: the PSR and the `pc` pushed on the supervisor stack, the new PSR
(supervisor, the latched priority, flags cleared), the `pc` from the interrupt vector table, the latch cleared. -/
def Obligations.InterruptEntryLoadsTheNewPsr : Prop :=
  ∀ s u : State, s.clockEnabled = true → exceptionCheck (s.rawRead s.pc) s.psr.mode = none →
    exec (decode (s.rawRead s.pc)) s = .next u → u.irq.asserted = true → u.psr.pl < u.irq.pl →
    ∃ t, step s = .next t ∧ EntersHandler u.irq.vec u t ∧
      t.psr = { mode := .supervisor, pl := u.irq.pl, n := false, z := false, p := false } ∧
      t.irq = { u.irq with asserted := false }

/-- "`RTI` reverses this" (R182, R217; frame layout by D1, C3): RTI in the state just after any exception or interrupt
entry gives back the `pc`, the PSR, all eight registers and `saved_ssp` as they were before the entry. -/
def Obligations.RtiReversesEveryEntry : Prop :=
  ∀ (s : State) (v : Vector8), ∀ t ∈ [s.exceptionEntry v, s.interruptEntry],
    ∃ u, exec .rti t = .next u ∧ u.pc = s.pc ∧ u.psr = s.psr ∧ (∀ r, u.reg r = s.reg r) ∧
      u.savedSsp = s.savedSsp

/-! ## Rules of the whole machine -/

/-- The invariant holds after reset (the reset state of log entry 9). -/
def Obligations.ResetMeetsTheInvariant : Prop := Inv State.reset

/-- Every step keeps the invariant: canonical memory, a rising breakpoint set, and a pending request that is the
keyboard's (R33, R36, R209). -/
def Obligations.EveryStepKeepsTheInvariant : Prop :=
  ∀ s t : State, Inv s → step s = .next t → Inv t

/-- Whatever the keyboard source and the host do between two cycles keeps the invariant (R4, R62, R234). -/
def Obligations.EveryActionKeepsTheInvariant : Prop :=
  ∀ (s : State) (a : Action), Inv s → Inv (s.act a)

/-- "No instruction other than RTI can enter user mode" (R221): a step from supervisor to user mode ran an RTI whose
popped PSR word has bit 15 set. -/
def Obligations.OnlyRtiEntersUserMode : Prop :=
  ∀ s t : State, step s = .next t → s.psr.mode = .supervisor → t.psr.mode = .user →
    decode (s.rawRead s.pc) = .rti ∧
    (cellAfterReads [s.reg 6#3] s (s.reg 6#3 + 1#16)).getLsbD 15 = true

/-- "No instruction other than RTI changes it" (R27, with the spec's decisions D4 and D25): a step that changes the
priority ran an RTI in supervisor mode, or took the pending interrupt: its priority was above the old one and is the
new one, and the latch is cleared. -/
def Obligations.PriorityChangesOnlyByRtiOrInterrupt : Prop :=
  ∀ s t : State, step s = .next t → t.psr.pl ≠ s.psr.pl →
    (decode (s.rawRead s.pc) = .rti ∧ s.psr.mode = .supervisor) ∨
    (s.irq.asserted = true ∧ s.psr.pl < s.irq.pl ∧ t.psr.pl = s.irq.pl ∧ t.irq = { s.irq with asserted := false })

/-- The shadow slots change only where the rules say (R31, R222; D19): no step begun in user mode changes
`saved_ssp`, and a step changes `saved_usp` only by going from user to supervisor mode. -/
def Obligations.ShadowSlotsChangeOnlyAtModeSwitches : Prop :=
  ∀ s t : State, step s = .next t →
    (s.psr.mode = .user → t.savedSsp = s.savedSsp) ∧
    (t.savedSsp ≠ s.savedSsp → decode (s.rawRead s.pc) = .rti) ∧
    (t.savedUsp ≠ s.savedUsp → s.psr.mode = .user ∧ t.psr.mode = .supervisor)

/-- No cycle asserts or rewrites the interrupt latch; it can only be cleared, by taking the request (R211). -/
def Obligations.LatchIsOnlyClearedByACycle : Prop :=
  ∀ s t : State, step s = .next t →
    t.irq = s.irq ∨ (s.irq.asserted = true ∧ t.irq = { s.irq with asserted := false } ∧
      t.psr = { mode := .supervisor, pl := s.irq.pl, n := false, z := false, p := false })

/-- The breakpoint set and the launch data influence no cycle and no cycle changes them: "a cycle behaves the same
whatever it holds" (R36, R146). -/
def Obligations.HostSideDoesNotInfluenceTheCore : Prop :=
  ∀ (s t : State) (bs : List Word) (l : Launch), step s = .next t →
    t.breakpoints = s.breakpoints ∧ t.launch = s.launch ∧
    step { s with breakpoints := bs, launch := l } = .next { t with breakpoints := bs, launch := l }

/-- The display output only grows, and "The core never reads it back" (R63): from any other earlier output the same
step emits the same bytes and is otherwise the same. -/
def Obligations.DisplayIsWrittenAndNeverReadBack : Prop :=
  ∀ (s t : State) (d : List Byte), step s = .next t →
    ∃ bytes, t.display = s.display ++ bytes ∧
      step { s with display := d } = .next { t with display := d ++ bytes }

/-! ## The keyboard -/

/-- `KeyEvent(b)` (R62; that the byte is latched without a request and overwrites an unread one is the spec's
decision D12): the byte in KBDR, KBSR's ready bit, and a request exactly when KBSR bit 14 is set and the priority
is below 4; otherwise the latch stays; nothing else changes. -/
def Obligations.KeyEventLatchesAndMayRequest : Prop :=
  ∀ (s : State) (b : Byte),
    let t := s.keyEvent b
    t.rawRead 0xFE02#16 = b.setWidth 16 ∧ t.rawRead 0xFE00#16 = s.rawRead 0xFE00#16 ||| 0x8000#16 ∧
    (∀ a, a ≠ 0xFE02#16 → a ≠ 0xFE00#16 → t.rawRead a = s.rawRead a) ∧
    ((s.rawRead 0xFE00#16).getLsbD 14 = true ∧ s.psr.pl.toNat < 4 →
      t.irq = { asserted := true, pl := 4#3, vec := 0x80#8 }) ∧
    (¬ ((s.rawRead 0xFE00#16).getLsbD 14 = true ∧ s.psr.pl.toNat < 4) → t.irq = s.irq) ∧
    t = { s with mem := t.mem, irq := t.irq }

/-! ## Reset, host access and run control -/

/-- The state after reset: the values of R39 (user, priority 0, flags cleared, SSP = 0x3000, USP = 0, latch clear by
D15); registers zero, memory zero and the origin 0x3000 are the choices of log entries 6 to 9, the empty display (R63)
that of log entry 15; the clock is off. -/
def Obligations.ResetStateHoldsTheReloadValues : Prop :=
  UserPl0 State.reset ∧ StacksReset State.reset ∧ RegsZero State.reset ∧ LatchClear State.reset ∧
  PcAtOrigin State.reset ∧ State.reset.pc = 0x3000#16 ∧ (∀ a, State.reset.rawRead a = 0x0000#16) ∧
  State.reset.display = [] ∧ State.reset.breakpoints = [] ∧ ¬ ClockOn State.reset

/-- Reload (R250; registers zero, the latch cleared and the breakpoints kept are the spec's decisions D14 and D15): the
launch premises hold, the image is in memory, and memory outside it, the display and the breakpoints are as before.
That no reset mode clears the display (R63) is the model's choice, log entry 15. -/
def Obligations.ReloadEstablishesTheLaunchPremises : Prop :=
  ∀ (s : State) (img : ObjectImage),
    let t := s.reload img
    UserPl0 t ∧ StacksReset t ∧ RegsZero t ∧ LatchClear t ∧ PcAtOrigin t ∧ t.pc = img.origin ∧
    (img.words.length ≤ 2 ^ 16 → ImageLoaded img t) ∧
    (∀ a, (∀ i, i < img.words.length → a ≠ img.origin + BitVec.ofNat 16 i) → t.rawRead a = s.rawRead a) ∧
    t.display = s.display ∧ t.breakpoints = s.breakpoints

/-- "Two reloads of the same image produce identical memory, registers, PC, and PSR" (R250): from any two states,
memory in the cells the image covers (R39). -/
def Obligations.TwoReloadsOfOneImageAgree : Prop :=
  ∀ (s s' : State) (img : ObjectImage),
    (s.reload img).pc = (s'.reload img).pc ∧ (s.reload img).psr = (s'.reload img).psr ∧
    (∀ r, (s.reload img).reg r = (s'.reload img).reg r) ∧
    (∀ i, i < img.words.length → (s.reload img).rawRead (img.origin + BitVec.ofNat 16 i) =
      (s'.reload img).rawRead (img.origin + BitVec.ofNat 16 i)) ∧
    ((∀ a, s.rawRead a = s'.rawRead a) → ∀ a, (s.reload img).rawRead a = (s'.reload img).rawRead a)

/-- Reset memory (R252): every cell is zeroed, then the cells of `OS_IMAGE` (a finite map: no address twice) take its
words; the registers, `pc`, PSR, slots and latch are not touched. That the display, the breakpoint set and `OS_IMAGE`
are not touched either is the model's choice, log entries 15 and 26. -/
def Obligations.ResetMemoryZeroesAllButTheOsImage : Prop :=
  ∀ s : State, (s.launch.osImage.map Prod.fst).Nodup →
    (∀ c ∈ s.launch.osImage, s.resetMemory.rawRead c.1 = c.2) ∧
    (∀ a, a ∉ s.launch.osImage.map Prod.fst → s.resetMemory.rawRead a = 0x0000#16) ∧
    s.resetMemory = { s with mem := s.resetMemory.mem }

/-- Randomise memory (R253): whatever is drawn, the cells of `OS_IMAGE` (a finite map: no address twice) take its words
and nothing but memory changes; and for any content of the cells there is a draw after which every cell outside
`OS_IMAGE` holds it. The draw under no law is the spec's decision D30 (log entry 18); that the display, the breakpoints
and `OS_IMAGE` stay is the model's choice (log entries 15 and 26). -/
def Obligations.RandomiseMemoryReachesEveryContent : Prop :=
  (∀ (s : State) (draw : List (Word × Word)),
    ((s.launch.osImage.map Prod.fst).Nodup → ∀ c ∈ s.launch.osImage, (s.randomiseMemory draw).rawRead c.1 = c.2) ∧
    s.randomiseMemory draw = { s with mem := (s.randomiseMemory draw).mem }) ∧
  (∀ content : Word → Word, ∃ draw : List (Word × Word), ∀ (s : State) (a : Word),
    a ∉ s.launch.osImage.map Prod.fst → (s.randomiseMemory draw).rawRead a = content a)

/-- Restart moves the `pc` to the origin and changes nothing else (R251, with the spec's decision D27); the host's set
operations replace the named value and nothing else (R234, with D21); cancelling a run clears the clock-enable bit and
keeps every other bit and cell (R228, R233, log entry 24). -/
def Obligations.RestartAndHostWritesChangeOneThing : Prop :=
  ∀ (s : State) (a v : Word) (r : RegNum),
    s.act .restart = { s with pc := s.launch.image.origin } ∧
    s.act (.setPc v) = { s with pc := v } ∧
    s.act (.setPsr v) = { s with psr := PSR.ofWord v } ∧
    ((s.act (.setReg r v)).reg r = v ∧ KeepsRegs [r] s (s.act (.setReg r v)) ∧
      s.act (.setReg r v) = { s with regs := (s.act (.setReg r v)).regs }) ∧
    ((s.act (.setMem a v)).rawRead a = v ∧ (∀ b, b ≠ a → (s.act (.setMem a v)).rawRead b = s.rawRead b) ∧
      s.act (.setMem a v) = { s with mem := (s.act (.setMem a v)).mem }) ∧
    ((s.act .cancelRun).clockEnabled = false ∧
      (s.act .cancelRun).rawRead 0xFFFE#16 = s.rawRead 0xFFFE#16 &&& 0x7FFF#16 ∧
      (∀ b, b ≠ 0xFFFE#16 → (s.act .cancelRun).rawRead b = s.rawRead b) ∧
      s.act .cancelRun = { s with mem := (s.act .cancelRun).mem })

/-- The breakpoint set is a set (R36, R234): an address is in it after an add, out of it after a remove, none is in it
after a clear, and every other address is as it was. -/
def Obligations.BreakpointOperationsAreSetOperations : Prop :=
  ∀ (s : State) (a b : Word),
    (b ∈ (s.act (.addBreakpoint a)).breakpoints ↔ b = a ∨ b ∈ s.breakpoints) ∧
    (b ∈ (s.act (.removeBreakpoint a)).breakpoints ↔ b ≠ a ∧ b ∈ s.breakpoints) ∧
    b ∉ (s.act .clearBreakpoints).breakpoints

/-- R229: `stepIn` sets the clock-enable bit and makes exactly one cycle, which always completes; breakpoints are not
consulted. -/
def Obligations.StepInMakesExactlyOneCycle : Prop :=
  ∀ s : State,
    s.stepIn = step (s.rawWrite 0xFFFE#16 (s.rawRead 0xFFFE#16 ||| 0x8000#16)) ∧
    ∃ t r, (s.rawWrite 0xFFFE#16 (s.rawRead 0xFFFE#16 ||| 0x8000#16)).cycle = .next (t, r) ∧
      s.stepIn = .next t ∧
      ∀ bs, ({ s with breakpoints := bs } : State).stepIn = .next { t with breakpoints := bs }

/-- `run` (R228, R261; the place of the tests is the spec's decision D20): it never faults, it makes at least one
cycle, and where it stops the clock is disabled or `pc` is a breakpoint; where the first cycle leaves neither, it
goes on after the gap's actions. -/
def Obligations.RunStopsOnlyHaltedOrAtABreakpoint : Prop :=
  (∀ (s : State) (schedule : List (List Action)), ∃ e, s.run schedule = .next e ∧
    (e.stopped = true → e.state.clockEnabled = false ∨ e.state.pc ∈ e.state.breakpoints)) ∧
  (∀ (s t : State) (gap : List Action) (rest : List (List Action)) (r : CycleResult),
    s.setClockEnable.cycle = .next (t, r) →
    (t.clockEnabled = false ∨ t.pc ∈ t.breakpoints →
      s.run (gap :: rest) = .next { stopped := true, state := t }) ∧
    (t.clockEnabled = true → t.pc ∉ t.breakpoints →
      s.run (gap :: rest) = runLoop none rest (t.actAll gap)))

/-- `stepOver` and `stepOut` follow the call depth of R232 from 0 and from 1 (R230, R231; host bookkeeping, the spec's
decision D33). A loop at depth `d` makes a cycle; it stops where the clock is disabled, `pc` is a breakpoint or the new
depth is at or below 0 (log entry 12), and goes on from the new depth where none holds; it stops without a cycle where
the gap's actions disabled the clock, and at the end of its schedule it has not stopped (log entries 17 and 23). So
`stepOver` at a word that is no call ends after a normal cycle, as `stepIn` does; at a call it goes on, and ends after
the return that follows; `stepOut` goes on at a word that is no return and ends after one that is. -/
def Obligations.StepOverAndStepOutStopAtTheirDepth : Prop :=
  (∀ (s t : State) (r : CycleResult) (d d' : Int) (gap : List Action) (rest : List (List Action)),
    s.clockEnabled = true → s.cycle = .next (t, r) → DepthGoes (s.rawRead s.pc) r d d' →
    (¬ LoopGoesOn t ∨ d' ≤ 0 → runLoop (some d) (gap :: rest) s = .next { stopped := true, state := t }) ∧
    (LoopGoesOn t → 0 < d' → runLoop (some d) (gap :: rest) s = runLoop (some d') rest (t.actAll gap))) ∧
  (∀ (s : State) (d : Int) (gap : List Action) (rest : List (List Action)),
    (s.clockEnabled = false → runLoop (some d) (gap :: rest) s = .next { stopped := true, state := s }) ∧
    runLoop (some d) [] s = .next { stopped := false, state := s }) ∧
  (∀ (s t : State) (gap gap' : List Action) (rest : List (List Action)),
    s.setClockEnable.cycle = .next (t, .normal) →
    let w := s.setClockEnable.rawRead s.pc
    let next := t.actAll gap
    (¬ CallWord w →
      s.stepOver (gap :: rest) = .next { stopped := true, state := t } ∧ s.stepIn = .next t) ∧
    (ReturnWord w → s.stepOut (gap :: rest) = .next { stopped := true, state := t }) ∧
    (LoopGoesOn t →
      (CallWord w → s.stepOver (gap :: rest) = runLoop (some 1) rest next ∧
        s.stepOut (gap :: rest) = runLoop (some 2) rest next) ∧
      (¬ CallWord w → ¬ ReturnWord w → s.stepOut (gap :: rest) = runLoop (some 1) rest next) ∧
      (∀ u : State, CallWord w → next.clockEnabled = true → next.cycle = .next (u, .normal) →
        ReturnWord (next.rawRead next.pc) →
        s.stepOver (gap :: gap' :: rest) = .next { stopped := true, state := u })))
end

