-- ==== Sys2Proof/Laws/Decode.lean ====
section
/-! SUPPORT. Bits of placed fields and of the fields taken from a word, and which words decode to the two
instructions that step 1 looks for. -/

namespace Sys2Proof

/-- A bit of a placed field. -/
@[simp] theorem place_getLsbD {k : Nat} (f : BitVec k) (lo i : Nat) :
    (place f lo).getLsbD i = (decide (i < 16) && (decide (lo ≤ i) && f.getLsbD (i - lo))) := by
  simp only [place, BitVec.getLsbD_shiftLeft, BitVec.getLsbD_setWidth]
  by_cases h1 : i < 16 <;> by_cases h2 : i < lo
  · simp [h1, h2]
  · have h3 : i - lo < 16 := by omega
    have h4 : lo ≤ i := by omega
    simp [h1, h3, h4]
  · simp [h1]
  · simp [h1]

/-- Two words with the same bits are the same word. -/
theorem word_ext {v w : Word} (h : ∀ i, i < 16 → v.getLsbD i = w.getLsbD i) : v = w :=
  BitVec.eq_of_getLsbD_eq h

/-- The opcode is a given number exactly when its four bits are. -/
theorem opcodeOf_eq_iff (w : Word) (b3 b2 b1 b0 : Bool) :
    opcodeOf w = BitVec.ofBool b3 ++ BitVec.ofBool b2 ++ BitVec.ofBool b1 ++ BitVec.ofBool b0 ↔
      w.getLsbD 15 = b3 ∧ w.getLsbD 14 = b2 ∧ w.getLsbD 13 = b1 ∧ w.getLsbD 12 = b0 := by
  have hb : ∀ i, (opcodeOf w).getLsbD i = (decide (i < 4) && w.getLsbD (12 + i)) := by
    intro i; simp [opcodeOf, BitVec.getLsbD_extractLsb']
  constructor
  · intro h
    have h0 := congrArg (fun v => v.getLsbD 0) h
    have h1 := congrArg (fun v => v.getLsbD 1) h
    have h2 := congrArg (fun v => v.getLsbD 2) h
    have h3 := congrArg (fun v => v.getLsbD 3) h
    simp only [hb] at h0 h1 h2 h3
    refine ⟨?_, ?_, ?_, ?_⟩ <;> cases b3 <;> cases b2 <;> cases b1 <;> cases b0 <;> simp_all
  · rintro ⟨h3, h2, h1, h0⟩
    apply BitVec.eq_of_getLsbD_eq
    intro i hi
    rw [hb]
    have hi' : i = 0 ∨ i = 1 ∨ i = 2 ∨ i = 3 := by omega
    rcases hi' with rfl | rfl | rfl | rfl <;> cases b3 <;> cases b2 <;> cases b1 <;> cases b0 <;> simp_all

/-- A word decodes to the reserved instruction exactly when its opcode is 1101 (R98). -/
theorem decode_eq_reserved_iff (w : Word) : decode w = .reserved ↔ opcodeOf w = 0b1101#4 := by
  have h := opcodeOf_eq_iff w true true false true
  rw [show (0b1101#4) = BitVec.ofBool true ++ BitVec.ofBool true ++ BitVec.ofBool false ++
    BitVec.ofBool true by decide, h]
  unfold decode
  cases w.getLsbD 15 <;> cases w.getLsbD 14 <;> cases w.getLsbD 13 <;> cases w.getLsbD 12 <;>
    cases w.getLsbD 5 <;> cases w.getLsbD 11 <;> simp

/-- A word decodes to RTI exactly when its opcode is 1000 (R97). -/
theorem decode_eq_rti_iff (w : Word) : decode w = .rti ↔ opcodeOf w = 0b1000#4 := by
  have h := opcodeOf_eq_iff w true false false false
  rw [show (0b1000#4) = BitVec.ofBool true ++ BitVec.ofBool false ++ BitVec.ofBool false ++
    BitVec.ofBool false by decide, h]
  unfold decode
  cases w.getLsbD 15 <;> cases w.getLsbD 14 <;> cases w.getLsbD 13 <;> cases w.getLsbD 12 <;>
    cases w.getLsbD 5 <;> cases w.getLsbD 11 <;> simp

/-- The decoder never answers an assembler spelling. -/
theorem decode_wellFormed (w : Word) : (decode w).wellFormed = true := by
  unfold decode
  cases w.getLsbD 15 <;> cases w.getLsbD 14 <;> cases w.getLsbD 13 <;> cases w.getLsbD 12 <;>
    cases w.getLsbD 5 <;> cases w.getLsbD 11 <;> rfl

/-- A well-formed instruction stands for itself. -/
theorem canonical_of_wellFormed {i : Instr} (h : i.wellFormed = true) : i.canonical = i := by
  cases i <;> first | rfl | cases h

end Sys2Proof
end

