-- ==== Sys2Proof/Laws/State.lean ====
section
/-! SUPPORT. One lemma for each field of the state under each one-field update, true by rfl, and the
accessors `reg` and `rawRead` under them. -/

namespace Sys2Proof.Machine

@[simp] theorem State.setPc_regs (s : State) (v : Word) : (s.setPc v).regs = s.regs := rfl
@[simp] theorem State.setPc_pc (s : State) (v : Word) : (s.setPc v).pc = v := rfl
@[simp] theorem State.setPc_psr (s : State) (v : Word) : (s.setPc v).psr = s.psr := rfl
@[simp] theorem State.setPc_savedSsp (s : State) (v : Word) : (s.setPc v).savedSsp = s.savedSsp := rfl
@[simp] theorem State.setPc_savedUsp (s : State) (v : Word) : (s.setPc v).savedUsp = s.savedUsp := rfl
@[simp] theorem State.setPc_irq (s : State) (v : Word) : (s.setPc v).irq = s.irq := rfl
@[simp] theorem State.setPc_mem (s : State) (v : Word) : (s.setPc v).mem = s.mem := rfl
@[simp] theorem State.setPc_display (s : State) (v : Word) : (s.setPc v).display = s.display := rfl
@[simp] theorem State.setPc_breakpoints (s : State) (v : Word) : (s.setPc v).breakpoints = s.breakpoints := rfl
@[simp] theorem State.setPc_launch (s : State) (v : Word) : (s.setPc v).launch = s.launch := rfl
@[simp] theorem State.setPc_reg (s : State) (v : Word) (k : RegNum) : (s.setPc v).reg k = s.reg k := rfl
@[simp] theorem State.setPc_rawRead (s : State) (v : Word) (a : Word) : (s.setPc v).rawRead a = s.rawRead a := rfl

@[simp] theorem State.setPsr_regs (s : State) (q : PSR) : (s.setPsr q).regs = s.regs := rfl
@[simp] theorem State.setPsr_pc (s : State) (q : PSR) : (s.setPsr q).pc = s.pc := rfl
@[simp] theorem State.setPsr_psr (s : State) (q : PSR) : (s.setPsr q).psr = q := rfl
@[simp] theorem State.setPsr_savedSsp (s : State) (q : PSR) : (s.setPsr q).savedSsp = s.savedSsp := rfl
@[simp] theorem State.setPsr_savedUsp (s : State) (q : PSR) : (s.setPsr q).savedUsp = s.savedUsp := rfl
@[simp] theorem State.setPsr_irq (s : State) (q : PSR) : (s.setPsr q).irq = s.irq := rfl
@[simp] theorem State.setPsr_mem (s : State) (q : PSR) : (s.setPsr q).mem = s.mem := rfl
@[simp] theorem State.setPsr_display (s : State) (q : PSR) : (s.setPsr q).display = s.display := rfl
@[simp] theorem State.setPsr_breakpoints (s : State) (q : PSR) : (s.setPsr q).breakpoints = s.breakpoints := rfl
@[simp] theorem State.setPsr_launch (s : State) (q : PSR) : (s.setPsr q).launch = s.launch := rfl
@[simp] theorem State.setPsr_reg (s : State) (q : PSR) (k : RegNum) : (s.setPsr q).reg k = s.reg k := rfl
@[simp] theorem State.setPsr_rawRead (s : State) (q : PSR) (a : Word) : (s.setPsr q).rawRead a = s.rawRead a := rfl

@[simp] theorem State.setMode_regs (s : State) (m : Mode) : (s.setMode m).regs = s.regs := rfl
@[simp] theorem State.setMode_pc (s : State) (m : Mode) : (s.setMode m).pc = s.pc := rfl
@[simp] theorem State.setMode_psr (s : State) (m : Mode) : (s.setMode m).psr = { s.psr with mode := m } := rfl
@[simp] theorem State.setMode_savedSsp (s : State) (m : Mode) : (s.setMode m).savedSsp = s.savedSsp := rfl
@[simp] theorem State.setMode_savedUsp (s : State) (m : Mode) : (s.setMode m).savedUsp = s.savedUsp := rfl
@[simp] theorem State.setMode_irq (s : State) (m : Mode) : (s.setMode m).irq = s.irq := rfl
@[simp] theorem State.setMode_mem (s : State) (m : Mode) : (s.setMode m).mem = s.mem := rfl
@[simp] theorem State.setMode_display (s : State) (m : Mode) : (s.setMode m).display = s.display := rfl
@[simp] theorem State.setMode_breakpoints (s : State) (m : Mode) : (s.setMode m).breakpoints = s.breakpoints := rfl
@[simp] theorem State.setMode_launch (s : State) (m : Mode) : (s.setMode m).launch = s.launch := rfl
@[simp] theorem State.setMode_reg (s : State) (m : Mode) (k : RegNum) : (s.setMode m).reg k = s.reg k := rfl
@[simp] theorem State.setMode_rawRead (s : State) (m : Mode) (a : Word) : (s.setMode m).rawRead a = s.rawRead a := rfl

@[simp] theorem State.setSavedSsp_regs (s : State) (v : Word) : (s.setSavedSsp v).regs = s.regs := rfl
@[simp] theorem State.setSavedSsp_pc (s : State) (v : Word) : (s.setSavedSsp v).pc = s.pc := rfl
@[simp] theorem State.setSavedSsp_psr (s : State) (v : Word) : (s.setSavedSsp v).psr = s.psr := rfl
@[simp] theorem State.setSavedSsp_savedSsp (s : State) (v : Word) : (s.setSavedSsp v).savedSsp = v := rfl
@[simp] theorem State.setSavedSsp_savedUsp (s : State) (v : Word) : (s.setSavedSsp v).savedUsp = s.savedUsp := rfl
@[simp] theorem State.setSavedSsp_irq (s : State) (v : Word) : (s.setSavedSsp v).irq = s.irq := rfl
@[simp] theorem State.setSavedSsp_mem (s : State) (v : Word) : (s.setSavedSsp v).mem = s.mem := rfl
@[simp] theorem State.setSavedSsp_display (s : State) (v : Word) : (s.setSavedSsp v).display = s.display := rfl
@[simp] theorem State.setSavedSsp_breakpoints (s : State) (v : Word) : (s.setSavedSsp v).breakpoints = s.breakpoints := rfl
@[simp] theorem State.setSavedSsp_launch (s : State) (v : Word) : (s.setSavedSsp v).launch = s.launch := rfl
@[simp] theorem State.setSavedSsp_reg (s : State) (v : Word) (k : RegNum) : (s.setSavedSsp v).reg k = s.reg k := rfl
@[simp] theorem State.setSavedSsp_rawRead (s : State) (v : Word) (a : Word) : (s.setSavedSsp v).rawRead a = s.rawRead a := rfl

@[simp] theorem State.setSavedUsp_regs (s : State) (v : Word) : (s.setSavedUsp v).regs = s.regs := rfl
@[simp] theorem State.setSavedUsp_pc (s : State) (v : Word) : (s.setSavedUsp v).pc = s.pc := rfl
@[simp] theorem State.setSavedUsp_psr (s : State) (v : Word) : (s.setSavedUsp v).psr = s.psr := rfl
@[simp] theorem State.setSavedUsp_savedSsp (s : State) (v : Word) : (s.setSavedUsp v).savedSsp = s.savedSsp := rfl
@[simp] theorem State.setSavedUsp_savedUsp (s : State) (v : Word) : (s.setSavedUsp v).savedUsp = v := rfl
@[simp] theorem State.setSavedUsp_irq (s : State) (v : Word) : (s.setSavedUsp v).irq = s.irq := rfl
@[simp] theorem State.setSavedUsp_mem (s : State) (v : Word) : (s.setSavedUsp v).mem = s.mem := rfl
@[simp] theorem State.setSavedUsp_display (s : State) (v : Word) : (s.setSavedUsp v).display = s.display := rfl
@[simp] theorem State.setSavedUsp_breakpoints (s : State) (v : Word) : (s.setSavedUsp v).breakpoints = s.breakpoints := rfl
@[simp] theorem State.setSavedUsp_launch (s : State) (v : Word) : (s.setSavedUsp v).launch = s.launch := rfl
@[simp] theorem State.setSavedUsp_reg (s : State) (v : Word) (k : RegNum) : (s.setSavedUsp v).reg k = s.reg k := rfl
@[simp] theorem State.setSavedUsp_rawRead (s : State) (v : Word) (a : Word) : (s.setSavedUsp v).rawRead a = s.rawRead a := rfl

@[simp] theorem State.setIrq_regs (s : State) (l : IrqLatch) : (s.setIrq l).regs = s.regs := rfl
@[simp] theorem State.setIrq_pc (s : State) (l : IrqLatch) : (s.setIrq l).pc = s.pc := rfl
@[simp] theorem State.setIrq_psr (s : State) (l : IrqLatch) : (s.setIrq l).psr = s.psr := rfl
@[simp] theorem State.setIrq_savedSsp (s : State) (l : IrqLatch) : (s.setIrq l).savedSsp = s.savedSsp := rfl
@[simp] theorem State.setIrq_savedUsp (s : State) (l : IrqLatch) : (s.setIrq l).savedUsp = s.savedUsp := rfl
@[simp] theorem State.setIrq_irq (s : State) (l : IrqLatch) : (s.setIrq l).irq = l := rfl
@[simp] theorem State.setIrq_mem (s : State) (l : IrqLatch) : (s.setIrq l).mem = s.mem := rfl
@[simp] theorem State.setIrq_display (s : State) (l : IrqLatch) : (s.setIrq l).display = s.display := rfl
@[simp] theorem State.setIrq_breakpoints (s : State) (l : IrqLatch) : (s.setIrq l).breakpoints = s.breakpoints := rfl
@[simp] theorem State.setIrq_launch (s : State) (l : IrqLatch) : (s.setIrq l).launch = s.launch := rfl
@[simp] theorem State.setIrq_reg (s : State) (l : IrqLatch) (k : RegNum) : (s.setIrq l).reg k = s.reg k := rfl
@[simp] theorem State.setIrq_rawRead (s : State) (l : IrqLatch) (a : Word) : (s.setIrq l).rawRead a = s.rawRead a := rfl

@[simp] theorem State.setMem_regs (s : State) (m : Memory) : (s.setMem m).regs = s.regs := rfl
@[simp] theorem State.setMem_pc (s : State) (m : Memory) : (s.setMem m).pc = s.pc := rfl
@[simp] theorem State.setMem_psr (s : State) (m : Memory) : (s.setMem m).psr = s.psr := rfl
@[simp] theorem State.setMem_savedSsp (s : State) (m : Memory) : (s.setMem m).savedSsp = s.savedSsp := rfl
@[simp] theorem State.setMem_savedUsp (s : State) (m : Memory) : (s.setMem m).savedUsp = s.savedUsp := rfl
@[simp] theorem State.setMem_irq (s : State) (m : Memory) : (s.setMem m).irq = s.irq := rfl
@[simp] theorem State.setMem_mem (s : State) (m : Memory) : (s.setMem m).mem = m := rfl
@[simp] theorem State.setMem_display (s : State) (m : Memory) : (s.setMem m).display = s.display := rfl
@[simp] theorem State.setMem_breakpoints (s : State) (m : Memory) : (s.setMem m).breakpoints = s.breakpoints := rfl
@[simp] theorem State.setMem_launch (s : State) (m : Memory) : (s.setMem m).launch = s.launch := rfl
@[simp] theorem State.setMem_reg (s : State) (m : Memory) (k : RegNum) : (s.setMem m).reg k = s.reg k := rfl

@[simp] theorem State.displayByte_regs (s : State) (b : Byte) : (s.displayByte b).regs = s.regs := rfl
@[simp] theorem State.displayByte_pc (s : State) (b : Byte) : (s.displayByte b).pc = s.pc := rfl
@[simp] theorem State.displayByte_psr (s : State) (b : Byte) : (s.displayByte b).psr = s.psr := rfl
@[simp] theorem State.displayByte_savedSsp (s : State) (b : Byte) : (s.displayByte b).savedSsp = s.savedSsp := rfl
@[simp] theorem State.displayByte_savedUsp (s : State) (b : Byte) : (s.displayByte b).savedUsp = s.savedUsp := rfl
@[simp] theorem State.displayByte_irq (s : State) (b : Byte) : (s.displayByte b).irq = s.irq := rfl
@[simp] theorem State.displayByte_mem (s : State) (b : Byte) : (s.displayByte b).mem = s.mem := rfl
@[simp] theorem State.displayByte_display (s : State) (b : Byte) : (s.displayByte b).display = s.display ++ [b] := rfl
@[simp] theorem State.displayByte_breakpoints (s : State) (b : Byte) : (s.displayByte b).breakpoints = s.breakpoints := rfl
@[simp] theorem State.displayByte_launch (s : State) (b : Byte) : (s.displayByte b).launch = s.launch := rfl
@[simp] theorem State.displayByte_reg (s : State) (b : Byte) (k : RegNum) : (s.displayByte b).reg k = s.reg k := rfl
@[simp] theorem State.displayByte_rawRead (s : State) (b : Byte) (a : Word) : (s.displayByte b).rawRead a = s.rawRead a := rfl

@[simp] theorem State.setBreakpoints_regs (s : State) (bs : List Word) : (s.setBreakpoints bs).regs = s.regs := rfl
@[simp] theorem State.setBreakpoints_pc (s : State) (bs : List Word) : (s.setBreakpoints bs).pc = s.pc := rfl
@[simp] theorem State.setBreakpoints_psr (s : State) (bs : List Word) : (s.setBreakpoints bs).psr = s.psr := rfl
@[simp] theorem State.setBreakpoints_savedSsp (s : State) (bs : List Word) : (s.setBreakpoints bs).savedSsp = s.savedSsp := rfl
@[simp] theorem State.setBreakpoints_savedUsp (s : State) (bs : List Word) : (s.setBreakpoints bs).savedUsp = s.savedUsp := rfl
@[simp] theorem State.setBreakpoints_irq (s : State) (bs : List Word) : (s.setBreakpoints bs).irq = s.irq := rfl
@[simp] theorem State.setBreakpoints_mem (s : State) (bs : List Word) : (s.setBreakpoints bs).mem = s.mem := rfl
@[simp] theorem State.setBreakpoints_display (s : State) (bs : List Word) : (s.setBreakpoints bs).display = s.display := rfl
@[simp] theorem State.setBreakpoints_breakpoints (s : State) (bs : List Word) : (s.setBreakpoints bs).breakpoints = bs := rfl
@[simp] theorem State.setBreakpoints_launch (s : State) (bs : List Word) : (s.setBreakpoints bs).launch = s.launch := rfl
@[simp] theorem State.setBreakpoints_reg (s : State) (bs : List Word) (k : RegNum) : (s.setBreakpoints bs).reg k = s.reg k := rfl
@[simp] theorem State.setBreakpoints_rawRead (s : State) (bs : List Word) (a : Word) : (s.setBreakpoints bs).rawRead a = s.rawRead a := rfl

@[simp] theorem State.setLaunch_regs (s : State) (l : Launch) : (s.setLaunch l).regs = s.regs := rfl
@[simp] theorem State.setLaunch_pc (s : State) (l : Launch) : (s.setLaunch l).pc = s.pc := rfl
@[simp] theorem State.setLaunch_psr (s : State) (l : Launch) : (s.setLaunch l).psr = s.psr := rfl
@[simp] theorem State.setLaunch_savedSsp (s : State) (l : Launch) : (s.setLaunch l).savedSsp = s.savedSsp := rfl
@[simp] theorem State.setLaunch_savedUsp (s : State) (l : Launch) : (s.setLaunch l).savedUsp = s.savedUsp := rfl
@[simp] theorem State.setLaunch_irq (s : State) (l : Launch) : (s.setLaunch l).irq = s.irq := rfl
@[simp] theorem State.setLaunch_mem (s : State) (l : Launch) : (s.setLaunch l).mem = s.mem := rfl
@[simp] theorem State.setLaunch_display (s : State) (l : Launch) : (s.setLaunch l).display = s.display := rfl
@[simp] theorem State.setLaunch_breakpoints (s : State) (l : Launch) : (s.setLaunch l).breakpoints = s.breakpoints := rfl
@[simp] theorem State.setLaunch_launch (s : State) (l : Launch) : (s.setLaunch l).launch = l := rfl
@[simp] theorem State.setLaunch_reg (s : State) (l : Launch) (k : RegNum) : (s.setLaunch l).reg k = s.reg k := rfl
@[simp] theorem State.setLaunch_rawRead (s : State) (l : Launch) (a : Word) : (s.setLaunch l).rawRead a = s.rawRead a := rfl

@[simp] theorem State.setReg_regs (s : State) (r : RegNum) (v : Word) : (s.setReg r v).regs = s.regs.set r.toNat v r.isLt := rfl
@[simp] theorem State.setReg_pc (s : State) (r : RegNum) (v : Word) : (s.setReg r v).pc = s.pc := rfl
@[simp] theorem State.setReg_psr (s : State) (r : RegNum) (v : Word) : (s.setReg r v).psr = s.psr := rfl
@[simp] theorem State.setReg_savedSsp (s : State) (r : RegNum) (v : Word) : (s.setReg r v).savedSsp = s.savedSsp := rfl
@[simp] theorem State.setReg_savedUsp (s : State) (r : RegNum) (v : Word) : (s.setReg r v).savedUsp = s.savedUsp := rfl
@[simp] theorem State.setReg_irq (s : State) (r : RegNum) (v : Word) : (s.setReg r v).irq = s.irq := rfl
@[simp] theorem State.setReg_mem (s : State) (r : RegNum) (v : Word) : (s.setReg r v).mem = s.mem := rfl
@[simp] theorem State.setReg_display (s : State) (r : RegNum) (v : Word) : (s.setReg r v).display = s.display := rfl
@[simp] theorem State.setReg_breakpoints (s : State) (r : RegNum) (v : Word) : (s.setReg r v).breakpoints = s.breakpoints := rfl
@[simp] theorem State.setReg_launch (s : State) (r : RegNum) (v : Word) : (s.setReg r v).launch = s.launch := rfl
@[simp] theorem State.setReg_rawRead (s : State) (r : RegNum) (v : Word) (a : Word) : (s.setReg r v).rawRead a = s.rawRead a := rfl

@[simp] theorem State.setMem_rawRead (s : State) (m : Memory) (a : Word) : (s.setMem m).rawRead a = m.read a := rfl

/-! ## Registers -/

/-- A register reads back the word last written to it, and no other register changes (R20). -/
theorem State.setReg_reg (s : State) (r k : RegNum) (v : Word) :
    (s.setReg r v).reg k = if k = r then v else s.reg k := by
  unfold State.reg State.setReg
  by_cases h : k = r
  · subst h; simp
  · have : r.toNat ≠ k.toNat := fun e => h (BitVec.eq_of_toNat_eq e.symm)
    simp [this, h]

@[simp] theorem State.setReg_reg_same (s : State) (r : RegNum) (v : Word) : (s.setReg r v).reg r = v := by
  simp [State.setReg_reg]

@[simp] theorem State.setReg_reg_other (s : State) {r k : RegNum} (v : Word) (h : k ≠ r) :
    (s.setReg r v).reg k = s.reg k := by
  simp [State.setReg_reg, h]

/-! ## Composite updates -/

@[simp] theorem State.advance_pc (s : State) : s.advance.pc = s.pc + 1#16 := rfl
@[simp] theorem State.advance_psr (s : State) : s.advance.psr = s.psr := rfl
@[simp] theorem State.advance_savedSsp (s : State) : s.advance.savedSsp = s.savedSsp := rfl
@[simp] theorem State.advance_savedUsp (s : State) : s.advance.savedUsp = s.savedUsp := rfl
@[simp] theorem State.advance_irq (s : State) : s.advance.irq = s.irq := rfl
@[simp] theorem State.advance_mem (s : State) : s.advance.mem = s.mem := rfl
@[simp] theorem State.advance_display (s : State) : s.advance.display = s.display := rfl
@[simp] theorem State.advance_breakpoints (s : State) : s.advance.breakpoints = s.breakpoints := rfl
@[simp] theorem State.advance_launch (s : State) : s.advance.launch = s.launch := rfl
@[simp] theorem State.advance_reg (s : State) (k : RegNum) : s.advance.reg k = s.reg k := rfl
@[simp] theorem State.advance_rawRead (s : State) (a : Word) : s.advance.rawRead a = s.rawRead a := rfl

@[simp] theorem State.setcc_psr (s : State) (v : Word) : (s.setcc v).psr = s.psr.setcc v := rfl
@[simp] theorem State.setcc_pc (s : State) (v : Word) : (s.setcc v).pc = s.pc := rfl
@[simp] theorem State.setcc_savedSsp (s : State) (v : Word) : (s.setcc v).savedSsp = s.savedSsp := rfl
@[simp] theorem State.setcc_savedUsp (s : State) (v : Word) : (s.setcc v).savedUsp = s.savedUsp := rfl
@[simp] theorem State.setcc_irq (s : State) (v : Word) : (s.setcc v).irq = s.irq := rfl
@[simp] theorem State.setcc_mem (s : State) (v : Word) : (s.setcc v).mem = s.mem := rfl
@[simp] theorem State.setcc_display (s : State) (v : Word) : (s.setcc v).display = s.display := rfl
@[simp] theorem State.setcc_breakpoints (s : State) (v : Word) : (s.setcc v).breakpoints = s.breakpoints := rfl
@[simp] theorem State.setcc_launch (s : State) (v : Word) : (s.setcc v).launch = s.launch := rfl
@[simp] theorem State.setcc_reg (s : State) (v : Word) (k : RegNum) : (s.setcc v).reg k = s.reg k := rfl
@[simp] theorem State.setcc_rawRead (s : State) (v a : Word) : (s.setcc v).rawRead a = s.rawRead a := rfl

@[simp] theorem PSR.setcc_mode (q : PSR) (v : Word) : (q.setcc v).mode = q.mode := rfl
@[simp] theorem PSR.setcc_pl (q : PSR) (v : Word) : (q.setcc v).pl = q.pl := rfl

@[simp] theorem PSR.setccIf_mode (c : Bool) (q : PSR) (v : Word) : (q.setccIf c v).mode = q.mode := rfl
@[simp] theorem PSR.setccIf_pl (c : Bool) (q : PSR) (v : Word) : (q.setccIf c v).pl = q.pl := rfl
@[simp] theorem PSR.setccIf_true (q : PSR) (v : Word) : q.setccIf true v = q.setcc v := rfl
@[simp] theorem PSR.setccIf_false (q : PSR) (v : Word) : q.setccIf false v = q := rfl

end Sys2Proof.Machine
end

