-- ==== Sys2Proof/Laws/Memory.lean ====
section
/-! SUPPORT. The laws of the memory array: reading back, leaving alone, keeping the canonical form, and
equality of canonical memories that read alike. The read laws hold of every list of cells, canonical or not. -/

namespace Sys2Proof.Machine

theorem lookupCell_dropWhile_above {j k : Nat} (h : k < j) (l : List Cell) :
    lookupCell j (l.dropWhile (fun d => d.1 ≤ k)) = lookupCell j l := by
  induction l with
  | nil => rfl
  | cons c rest ih =>
    rw [List.dropWhile_cons]
    by_cases hc : c.1 ≤ k
    · have : c.1 < j := by omega
      simp [hc, ih, lookupCell, this]
    · simp [hc]

theorem lookupCell_dropWhile_upTo {j k : Nat} (h : j ≤ k) (l : List Cell) :
    lookupCell j (l.dropWhile (fun d => d.1 ≤ k)) = Config.unlistedWord := by
  induction l with
  | nil => rfl
  | cons c rest ih =>
    rw [List.dropWhile_cons]
    by_cases hc : c.1 ≤ k
    · simpa [hc] using ih
    · have h1 : ¬ c.1 < j := by omega
      have h2 : ¬ c.1 = j := by omega
      simp [hc, lookupCell, h1, h2]

/-- What a stored cell list reads at any address. -/
theorem lookupCell_storeCell (j k : Nat) (v : Word) (l : List Cell) :
    lookupCell j (storeCell k v l) = if j = k then v else lookupCell j l := by
  induction l with
  | nil =>
    by_cases hv : v = Config.unlistedWord
    · simp [storeCell, hv, lookupCell]
    · by_cases h : j = k
      · simp [storeCell, hv, lookupCell, h]
      · have : ¬ k = j := fun e => h e.symm
        by_cases hlt : k < j <;> simp [storeCell, hv, lookupCell, h, this, hlt]
  | cons c rest ih =>
    by_cases hc : c.1 < k
    · by_cases hj : c.1 < j
      · simp [storeCell, hc, lookupCell, hj, ih]
      · have : ¬ j = k := by omega
        simp [storeCell, hc, lookupCell, hj, this]
    · have hd : ∀ i, lookupCell i (storeCell k v (c :: rest)) =
          if v = Config.unlistedWord then lookupCell i ((c :: rest).dropWhile (fun d => d.1 ≤ k))
          else lookupCell i ((k, v) :: (c :: rest).dropWhile (fun d => d.1 ≤ k)) := by
        intro i
        by_cases hv : v = Config.unlistedWord <;> simp [storeCell, hc, hv]
      rw [hd]
      rcases Nat.lt_trichotomy j k with h | h | h
      · have hne : ¬ j = k := by omega
        have h1 : ¬ k < j := by omega
        have h2 : ¬ k = j := by omega
        have h3 : ¬ c.1 < j := by omega
        have h4 : ¬ c.1 = j := by omega
        rw [lookupCell_dropWhile_upTo (by omega : j ≤ k)]
        simp [lookupCell, hne, h1, h2, h3, h4]
      · subst h
        rw [lookupCell_dropWhile_upTo (Nat.le_refl _)]
        by_cases hv : v = Config.unlistedWord <;> simp [lookupCell, hv]
      · have hne : ¬ j = k := by omega
        rw [lookupCell_dropWhile_above h]
        by_cases hv : v = Config.unlistedWord
        · simp [hv, hne]
        · rw [if_neg hv, if_neg hne]
          show (if k < j then lookupCell j _ else _) = _
          rw [if_pos h, lookupCell_dropWhile_above h]

/-- Reading a memory after one write: the word written at its address, the old word everywhere else. -/
@[simp] theorem Memory.read_write (m : Memory) (a b v : Word) :
    (m.write a v).read b = if b = a then v else m.read b := by
  unfold Memory.read Memory.write
  rw [lookupCell_storeCell]
  by_cases h : b = a
  · simp [h]
  · have : ¬ b.toNat = a.toNat := fun e => h (BitVec.eq_of_toNat_eq e)
    simp [h, this]

theorem Memory.read_empty (a : Word) : ({ cells := [] } : Memory).read a = Config.unlistedWord := rfl

/-- A cell that a list of stores does not name keeps its word. -/
theorem Memory.read_writeAll_of_not_mem {a : Word} {l : List (Word × Word)} (h : a ∉ l.map Prod.fst) (m : Memory) :
    (m.writeAll l).read a = m.read a := by
  induction l generalizing m with
  | nil => rfl
  | cons c rest ih =>
    simp only [List.map_cons, List.mem_cons, not_or] at h
    rw [Memory.writeAll, ih h.2, Memory.read_write, if_neg h.1]

/-- Where no address is named twice, every named cell takes its word. -/
theorem Memory.read_writeAll_of_mem {l : List (Word × Word)} (hn : (l.map Prod.fst).Nodup) {c : Word × Word}
    (h : c ∈ l) (m : Memory) : (m.writeAll l).read c.1 = c.2 := by
  induction l generalizing m with
  | nil => cases h
  | cons d rest ih =>
    simp only [List.map_cons, List.nodup_cons] at hn
    rcases List.mem_cons.mp h with rfl | h
    · rw [Memory.writeAll, Memory.read_writeAll_of_not_mem hn.1, Memory.read_write, if_pos rfl]
    · exact ih hn.2 h _

/-! ## The canonical form -/

theorem storeCell_addresses {k : Nat} {v : Word} {l : List Cell} {c : Cell} (h : c ∈ storeCell k v l) :
    c ∈ l ∨ (c = (k, v) ∧ v ≠ Config.unlistedWord) := by
  induction l with
  | nil =>
    by_cases hv : v = Config.unlistedWord
    · simp [storeCell, hv] at h
    · simp [storeCell, hv] at h
      exact .inr ⟨h, hv⟩
  | cons d rest ih =>
    by_cases hd : d.1 < k
    · simp only [storeCell, hd, if_true, List.mem_cons] at h
      rcases h with h | h
      · exact .inl (by simp [h])
      · rcases ih h with h | h
        · exact .inl (by simp [h])
        · exact .inr h
    · have hsub : ∀ x, x ∈ (d :: rest).dropWhile (fun e => decide (e.1 ≤ k)) → x ∈ d :: rest :=
        fun x hx => (List.dropWhile_sublist _).subset hx
      by_cases hv : v = Config.unlistedWord
      · simp only [storeCell, hd, if_false, hv, if_true] at h
        exact .inl (hsub _ h)
      · simp only [storeCell, hd, if_false, hv, List.mem_cons] at h
        rcases h with h | h
        · exact .inr ⟨h, hv⟩
        · exact .inl (hsub _ h)

theorem dropWhile_upTo_above {k : Nat} {l : List Cell} (hl : l.Pairwise (fun c d => c.1 < d.1)) :
    ∀ c ∈ l.dropWhile (fun d => d.1 ≤ k), k < c.1 := by
  induction l with
  | nil => simp
  | cons d rest ih =>
    rw [List.dropWhile_cons]
    rw [List.pairwise_cons] at hl
    by_cases hd : d.1 ≤ k
    · simpa [hd] using ih hl.2
    · intro c hc
      simp only [hd, decide_false, Bool.false_eq_true, if_false, List.mem_cons] at hc
      rcases hc with hc | hc
      · subst hc; omega
      · have := hl.1 c hc; omega

theorem storeCell_rising {k : Nat} {v : Word} {l : List Cell} (hl : l.Pairwise (fun c d => c.1 < d.1)) :
    (storeCell k v l).Pairwise (fun c d => c.1 < d.1) := by
  induction l with
  | nil => by_cases hv : v = Config.unlistedWord <;> simp [storeCell, hv]
  | cons d rest ih =>
    have hl' := List.pairwise_cons.mp hl
    by_cases hd : d.1 < k
    · simp only [storeCell, hd, if_true, List.pairwise_cons]
      refine ⟨fun c hc => ?_, ih hl'.2⟩
      rcases storeCell_addresses hc with h | h
      · exact hl'.1 c h
      · simpa [h.1] using hd
    · have hdrop : ((d :: rest).dropWhile (fun e => decide (e.1 ≤ k))).Pairwise (fun c d => c.1 < d.1) :=
        hl.sublist (List.dropWhile_sublist _)
      by_cases hv : v = Config.unlistedWord
      · simpa only [storeCell, hd, if_false, hv, if_true] using hdrop
      · simp only [storeCell, hd, if_false, hv, List.pairwise_cons]
        exact ⟨dropWhile_upTo_above hl, hdrop⟩

/-- Every write keeps the canonical form. -/
theorem Memory.write_wf {m : Memory} (h : m.wf) (a v : Word) : (m.write a v).wf := by
  refine ⟨storeCell_rising h.1, fun c hc => ?_⟩
  rcases storeCell_addresses hc with hc | ⟨hc, hv⟩
  · exact h.2 c hc
  · subst hc; exact ⟨a.isLt, hv⟩

theorem Memory.empty_wf : ({ cells := [] } : Memory).wf := by decide

theorem Memory.writeAll_wf {m : Memory} (h : m.wf) (l : List (Word × Word)) : (m.writeAll l).wf := by
  induction l generalizing m with
  | nil => exact h
  | cons c rest ih => exact ih (Memory.write_wf h _ _)

theorem Memory.writeFrom_wf {m : Memory} (h : m.wf) (a : Word) (l : List Word) : (m.writeFrom a l).wf := by
  induction l generalizing m a with
  | nil => exact h
  | cons c rest ih => exact ih (Memory.write_wf h _ _) _

/-- A listed cell of a rising list reads as its word. -/
theorem lookupCell_of_mem {l : List Cell} (hl : l.Pairwise (fun c d => c.1 < d.1)) {c : Cell} (hc : c ∈ l) :
    lookupCell c.1 l = c.2 := by
  induction l with
  | nil => simp at hc
  | cons d rest ih =>
    have hl' := List.pairwise_cons.mp hl
    rcases List.mem_cons.mp hc with rfl | hc
    · simp [lookupCell]
    · simp [lookupCell, hl'.1 c hc, ih hl'.2 hc]

/-- An address that reads as something else than an unlisted one is listed. -/
theorem mem_of_lookupCell {l : List Cell} {k : Nat} (h : lookupCell k l ≠ Config.unlistedWord) :
    (k, lookupCell k l) ∈ l := by
  induction l with
  | nil => exact absurd rfl h
  | cons d rest ih =>
    by_cases h1 : d.1 < k
    · simp only [lookupCell, h1, if_true] at h ⊢
      exact List.mem_cons_of_mem _ (ih h)
    · by_cases h2 : d.1 = k
      · subst h2; simp [lookupCell]
      · simp [lookupCell, h1, h2] at h

theorem Memory.cell_mem_iff {m : Memory} (h : m.wf) (a v : Word) :
    (a.toNat, v) ∈ m.cells ↔ m.read a = v ∧ v ≠ Config.unlistedWord := by
  constructor
  · intro hc
    exact ⟨lookupCell_of_mem h.1 hc, (h.2 _ hc).2⟩
  · rintro ⟨rfl, hv⟩
    exact mem_of_lookupCell hv

/-! ## The state's memory -/

@[simp] theorem State.rawWrite_rawRead (s : State) (a b v : Word) :
    (s.rawWrite a v).rawRead b = if b = a then v else s.rawRead b := Memory.read_write _ _ _ _

@[simp] theorem State.rawWrite_mem (s : State) (a v : Word) : (s.rawWrite a v).mem = s.mem.write a v := rfl
@[simp] theorem State.rawWrite_pc (s : State) (a v : Word) : (s.rawWrite a v).pc = s.pc := rfl
@[simp] theorem State.rawWrite_psr (s : State) (a v : Word) : (s.rawWrite a v).psr = s.psr := rfl
@[simp] theorem State.rawWrite_savedSsp (s : State) (a v : Word) : (s.rawWrite a v).savedSsp = s.savedSsp := rfl
@[simp] theorem State.rawWrite_savedUsp (s : State) (a v : Word) : (s.rawWrite a v).savedUsp = s.savedUsp := rfl
@[simp] theorem State.rawWrite_irq (s : State) (a v : Word) : (s.rawWrite a v).irq = s.irq := rfl
@[simp] theorem State.rawWrite_display (s : State) (a v : Word) : (s.rawWrite a v).display = s.display := rfl
@[simp] theorem State.rawWrite_breakpoints (s : State) (a v : Word) :
    (s.rawWrite a v).breakpoints = s.breakpoints := rfl
@[simp] theorem State.rawWrite_launch (s : State) (a v : Word) : (s.rawWrite a v).launch = s.launch := rfl
@[simp] theorem State.rawWrite_reg (s : State) (a v : Word) (k : RegNum) : (s.rawWrite a v).reg k = s.reg k := rfl

end Sys2Proof.Machine
end

