-- ==== Sys2Proof/Laws/Ops.lean ====
section
/-! SUPPORT. For each shared operation, once, what it does: the accesses through the address decoder, the
stack, the stack switch, the entries and the return. -/

namespace Sys2Proof.Machine

open Sys2Proof.Safety

/-! ## MemRead -/

@[simp] theorem State.afterMemRead_pc (s : State) (a : Word) : (s.afterMemRead a).pc = s.pc := by
  unfold State.afterMemRead; split <;> rfl
@[simp] theorem State.afterMemRead_psr (s : State) (a : Word) : (s.afterMemRead a).psr = s.psr := by
  unfold State.afterMemRead; split <;> rfl
@[simp] theorem State.afterMemRead_savedSsp (s : State) (a : Word) : (s.afterMemRead a).savedSsp = s.savedSsp := by
  unfold State.afterMemRead; split <;> rfl
@[simp] theorem State.afterMemRead_savedUsp (s : State) (a : Word) : (s.afterMemRead a).savedUsp = s.savedUsp := by
  unfold State.afterMemRead; split <;> rfl
@[simp] theorem State.afterMemRead_irq (s : State) (a : Word) : (s.afterMemRead a).irq = s.irq := by
  unfold State.afterMemRead; split <;> rfl
@[simp] theorem State.afterMemRead_display (s : State) (a : Word) : (s.afterMemRead a).display = s.display := by
  unfold State.afterMemRead; split <;> rfl
@[simp] theorem State.afterMemRead_breakpoints (s : State) (a : Word) :
    (s.afterMemRead a).breakpoints = s.breakpoints := by
  unfold State.afterMemRead; split <;> rfl
@[simp] theorem State.afterMemRead_launch (s : State) (a : Word) : (s.afterMemRead a).launch = s.launch := by
  unfold State.afterMemRead; split <;> rfl
@[simp] theorem State.afterMemRead_reg (s : State) (a : Word) (k : RegNum) :
    (s.afterMemRead a).reg k = s.reg k := by
  unfold State.afterMemRead; split <;> rfl

/-- A data read leaves every cell as it was, but that a read of KBDR clears bit 15 of KBSR (R54). -/
@[simp] theorem State.afterMemRead_rawRead (s : State) (a b : Word) :
    (s.afterMemRead a).rawRead b = cellAfterReads [a] s b := by
  unfold State.afterMemRead cellAfterReads
  by_cases h : a = kbdr
  · by_cases hb : b = kbsr <;> simp [h, hb]
  · have h' : ¬ kbdr = a := fun e => h e.symm
    simp [h, h']

theorem State.afterMemRead_of_ne {a : Word} (h : a ≠ kbdr) (s : State) : s.afterMemRead a = s := by
  simp [State.afterMemRead, h]

@[simp] theorem State.memRead_fst (s : State) (a : Word) : (s.memRead a).1 = s.rawRead a := rfl
@[simp] theorem State.memRead_snd (s : State) (a : Word) : (s.memRead a).2 = s.afterMemRead a := rfl

/-- Two data reads in a row. -/
theorem cellAfterReads_twice (s : State) (a b c : Word) :
    cellAfterReads [b] (s.afterMemRead a) c = cellAfterReads [a, b] s c := by
  unfold cellAfterReads
  rw [State.afterMemRead_rawRead]
  unfold cellAfterReads
  by_cases hc : c = kbsr
  · by_cases ha : kbdr = a
    · by_cases hb : kbdr = b
      · simp [hc, eq_true ha, eq_true hb, BitVec.and_assoc]
      · simp [hc, eq_true ha, eq_false hb]
    · by_cases hb : kbdr = b
      · simp [hc, eq_false ha, eq_true hb]
      · simp [hc, eq_false ha, eq_false hb]
  · simp [hc]

/-- No vector cell is KBDR, so reading a vector has no side effect (R77). -/
theorem interruptVectorCell_ne_kbdr (v : Vector8) : interruptVectorCell v ≠ kbdr := by
  intro h
  have := congrArg BitVec.toNat h
  have hv := v.isLt
  simp [interruptVectorCell, kbdr] at this
  omega

theorem trapVectorCell_ne_kbdr (v : Vector8) : trapVectorCell v ≠ kbdr := by
  intro h
  have := congrArg BitVec.toNat h
  have hv := v.isLt
  simp [trapVectorCell, kbdr] at this
  omega

/-! ## MemWrite -/

@[simp] theorem State.memWrite_pc (s : State) (a v : Word) : (s.memWrite a v).pc = s.pc := by
  unfold State.memWrite; dsimp only; split <;> rfl
@[simp] theorem State.memWrite_psr (s : State) (a v : Word) : (s.memWrite a v).psr = s.psr := by
  unfold State.memWrite; dsimp only; split <;> rfl
@[simp] theorem State.memWrite_savedSsp (s : State) (a v : Word) : (s.memWrite a v).savedSsp = s.savedSsp := by
  unfold State.memWrite; dsimp only; split <;> rfl
@[simp] theorem State.memWrite_savedUsp (s : State) (a v : Word) : (s.memWrite a v).savedUsp = s.savedUsp := by
  unfold State.memWrite; dsimp only; split <;> rfl
@[simp] theorem State.memWrite_irq (s : State) (a v : Word) : (s.memWrite a v).irq = s.irq := by
  unfold State.memWrite; dsimp only; split <;> rfl
@[simp] theorem State.memWrite_breakpoints (s : State) (a v : Word) :
    (s.memWrite a v).breakpoints = s.breakpoints := by
  unfold State.memWrite; dsimp only; split <;> rfl
@[simp] theorem State.memWrite_launch (s : State) (a v : Word) : (s.memWrite a v).launch = s.launch := by
  unfold State.memWrite; dsimp only; split <;> rfl
@[simp] theorem State.memWrite_reg (s : State) (a v : Word) (k : RegNum) :
    (s.memWrite a v).reg k = s.reg k := by
  unfold State.memWrite; dsimp only; split <;> rfl

/-- A data write stores the whole word, and a write of DDR sets bit 15 of DSR (R55). -/
@[simp] theorem State.memWrite_rawRead (s : State) (ea v a : Word) :
    (s.memWrite ea v).rawRead a = cellAfterWrite ea v s.rawRead a := by
  unfold State.memWrite cellAfterWrite
  have hne : ¬ dsr = ddr := by decide
  by_cases h : ea = ddr
  · subst h
    by_cases ha : a = dsr
    · subst ha; simp [hne, bit15]
    · simp [ha]
  · simp [h]

/-- A write of DDR emits its low byte (R59, R63). -/
@[simp] theorem State.memWrite_display (s : State) (ea v : Word) :
    (s.memWrite ea v).display = displayAfterWrite ea v s.display := by
  unfold State.memWrite displayAfterWrite
  dsimp only
  split <;> rfl

/-! ## The stack -/

theorem State.push_eq (s : State) (v : Word) :
    s.push v = (s.setReg 6#3 (s.reg 6#3 - 1#16)).memWrite (s.reg 6#3 - 1#16) v := rfl

@[simp] theorem State.pop_fst (s : State) : s.pop.1 = s.rawRead (s.reg 6#3) := rfl
@[simp] theorem State.pop_snd (s : State) :
    s.pop.2 = (s.afterMemRead (s.reg 6#3)).setReg 6#3 (s.reg 6#3 + 1#16) := by
  simp [State.pop]

/-! ## The stack switch and the frame -/

@[simp] theorem State.switchFromUser_pc (s : State) : s.switchFromUser.pc = s.pc := by
  unfold State.switchFromUser; split <;> rfl
@[simp] theorem State.switchFromUser_savedSsp (s : State) : s.switchFromUser.savedSsp = s.savedSsp := by
  unfold State.switchFromUser; split <;> rfl
@[simp] theorem State.switchFromUser_savedUsp (s : State) : s.switchFromUser.savedUsp = entryUsp s := by
  unfold State.switchFromUser entryUsp; cases s.psr.mode <;> rfl
@[simp] theorem State.switchFromUser_irq (s : State) : s.switchFromUser.irq = s.irq := by
  unfold State.switchFromUser; split <;> rfl
@[simp] theorem State.switchFromUser_mem (s : State) : s.switchFromUser.mem = s.mem := by
  unfold State.switchFromUser; split <;> rfl
@[simp] theorem State.switchFromUser_display (s : State) : s.switchFromUser.display = s.display := by
  unfold State.switchFromUser; split <;> rfl
@[simp] theorem State.switchFromUser_breakpoints (s : State) :
    s.switchFromUser.breakpoints = s.breakpoints := by
  unfold State.switchFromUser; split <;> rfl
@[simp] theorem State.switchFromUser_launch (s : State) : s.switchFromUser.launch = s.launch := by
  unfold State.switchFromUser; split <;> rfl
@[simp] theorem State.switchFromUser_rawRead (s : State) (a : Word) :
    s.switchFromUser.rawRead a = s.rawRead a := by
  unfold State.switchFromUser; split <;> rfl

/-- After the switch the mode is supervisor, and the priority and the flags are as they were. -/
@[simp] theorem State.switchFromUser_psr (s : State) :
    s.switchFromUser.psr = { s.psr with mode := .supervisor } := by
  unfold State.switchFromUser
  split
  · rfl
  · next h => rw [← h]

/-- After the switch `x[6]` is the supervisor stack pointer; no other register changes. -/
@[simp] theorem State.switchFromUser_reg (s : State) (k : RegNum) :
    s.switchFromUser.reg k = if k = 6#3 then entryStack s else s.reg k := by
  unfold State.switchFromUser entryStack
  cases h : s.psr.mode
  · simp [State.enterSupervisor, State.setReg_reg]
  · by_cases hk : k = 6#3 <;> simp [hk]

/-- What the frame of an entry leaves in the state: everything `EntersHandler` says but the `pc`. -/
theorem State.pushFrame_spec (s : State) :
    s.pushFrame.reg 6#3 = entryStack s - 2#16 ∧ KeepsRegs [6#3] s s.pushFrame ∧
    s.pushFrame.savedUsp = entryUsp s ∧ s.pushFrame.savedSsp = s.savedSsp ∧
    (∀ a, s.pushFrame.rawRead a = cellAfterFrame s a) ∧ s.pushFrame.display = displayAfterFrame s ∧
    s.pushFrame.breakpoints = s.breakpoints ∧ s.pushFrame.launch = s.launch ∧
    s.pushFrame.psr = { s.psr with mode := .supervisor } ∧ s.pushFrame.irq = s.irq ∧
    s.pushFrame.pc = s.pc := by
  have h2 : entryStack s - 1#16 - 1#16 = entryStack s - 2#16 := by
    rw [BitVec.sub_sub]; rfl
  have hcell : ∀ a, s.pushFrame.rawRead a = cellAfterFrame s a := by
    intro a
    have hfun : (s.switchFromUser.push s.psr.word).rawRead =
        cellAfterWrite (entryStack s - 1#16) s.psr.word s.rawRead := by
      funext b
      have hraw : (s.switchFromUser.setReg 6#3 (entryStack s - 1#16)).rawRead = s.rawRead := by
        funext c; simp
      simp [State.push_eq, hraw]
    unfold State.pushFrame cellAfterFrame
    rw [State.push_eq, State.memWrite_rawRead]
    have hraw' : ∀ v, ((s.switchFromUser.push s.psr.word).setReg 6#3 v).rawRead =
        cellAfterWrite (entryStack s - 1#16) s.psr.word s.rawRead := by
      intro v; rw [← hfun]; rfl
    rw [hraw']
    simp [State.push_eq, h2]
  refine ⟨?_, ?_, ?_, ?_, hcell, ?_, ?_, ?_, ?_, ?_, ?_⟩
  · simp [State.pushFrame, State.push_eq, h2]
  · intro r hr
    have hr' : r ≠ 6#3 := by simpa using hr
    simp [State.pushFrame, State.push_eq, hr']
  all_goals simp [State.pushFrame, State.push_eq, displayAfterFrame, h2]

/-- Jumping through a vector writes the `pc` alone. -/
theorem State.jumpThroughVector_eq (s : State) (v : Vector8) :
    s.jumpThroughVector v = s.setPc (s.rawRead (interruptVectorCell v)) := by
  simp [State.jumpThroughVector, State.afterMemRead_of_ne (interruptVectorCell_ne_kbdr v)]

/-- An entry's frame and its jump enter the handler. -/
theorem entersHandler_of_fields {v : Vector8} {s t : State} (hr : ∀ k, t.reg k = s.pushFrame.reg k)
    (hu : t.savedUsp = s.pushFrame.savedUsp) (hs : t.savedSsp = s.pushFrame.savedSsp)
    (hm : ∀ a, t.rawRead a = s.pushFrame.rawRead a) (hd : t.display = s.pushFrame.display)
    (hp : t.pc = s.pushFrame.rawRead (interruptVectorCell v))
    (hb : t.breakpoints = s.pushFrame.breakpoints) (hl : t.launch = s.pushFrame.launch) :
    EntersHandler v s t := by
  obtain ⟨h1, h2, h3, h4, h5, h6, h7, h8, -⟩ := s.pushFrame_spec
  refine ⟨(hr _).trans h1, fun r h => (hr r).trans (h2 r h), hu.trans h3, hs.trans h4,
    fun a => (hm a).trans (h5 a), hd.trans h6, ?_, hb.trans h7, hl.trans h8⟩
  rw [hp, h5, interruptVectorCell]

/-- Everything that taking an exception does (R204, R206). -/
theorem State.exceptionEntry_spec (s : State) (v : Vector8) : TakesException v s (s.exceptionEntry v) := by
  obtain ⟨-, -, -, -, -, -, -, -, hq, hi, -⟩ := s.pushFrame_spec
  unfold State.exceptionEntry
  rw [State.jumpThroughVector_eq]
  refine ⟨entersHandler_of_fields ?_ ?_ ?_ ?_ ?_ ?_ ?_ ?_, ?_, ?_, ?_, ?_⟩
  all_goals simp [hq, hi, KeepsFlags]

/-- Everything that taking an interrupt does (R213). -/
theorem State.interruptEntry_spec (s : State) :
    EntersHandler s.irq.vec s s.interruptEntry ∧ s.interruptEntry.psr = interruptPsr s.irq ∧
    s.interruptEntry.irq = { s.irq with asserted := false } := by
  unfold State.interruptEntry
  rw [State.jumpThroughVector_eq]
  refine ⟨entersHandler_of_fields ?_ ?_ ?_ ?_ ?_ ?_ ?_ ?_, ?_, ?_⟩
  all_goals simp

/-! ## The return -/

/-- The return from an entry, field by field (R182). -/
theorem State.returnFromEntry_spec (s : State) : ReturnsFromEntry s s.returnFromEntry := by
  have h2 : s.reg 6#3 + 1#16 + 1#16 = s.reg 6#3 + 2#16 := by
    rw [BitVec.add_assoc]; rfl
  have hcell : ∀ (f : State) a,
      f = ((s.afterMemRead (s.reg 6#3)).setReg 6#3 (s.reg 6#3 + 1#16)).setPc (s.rawRead (s.reg 6#3)) →
      cellAfterReads [s.reg 6#3 + 1#16] f a = cellAfterReads [s.reg 6#3, s.reg 6#3 + 1#16] s a := by
    intro f a hf
    rw [← cellAfterReads_twice]
    subst hf; rfl
  have ht : s.returnFromEntry = ((((((s.afterMemRead (s.reg 6#3)).setReg 6#3 (s.reg 6#3 + 1#16)).setPc
      (s.rawRead (s.reg 6#3))).afterMemRead (s.reg 6#3 + 1#16)).setReg 6#3
      (s.reg 6#3 + 2#16)).setPsr (poppedPsr s)).switchToUser := by
    simp [State.returnFromEntry, poppedPsr, h2]
  rw [ht]
  cases hm : (poppedPsr s).mode
  all_goals
    simp only [State.switchToUser, State.setPsr_psr, hm]
    refine ⟨?_, ?_, ?_, ?_, ?_, ?_, ⟨?_, ?_⟩, ?_, ?_, ?_⟩
    case refine_6 =>
      intro r hr
      have hr' : r ≠ 6#3 := by simpa using hr
      simp [hr']
    case refine_7 =>
      intro a
      simp only [State.setSavedSsp_rawRead, State.setReg_rawRead, State.setPsr_rawRead,
        State.afterMemRead_rawRead]
      exact hcell _ a rfl
    all_goals simp [hm]

end Sys2Proof.Machine
end

