-- ==== Sys2Proof/Laws/Exec.lean ====
section
/-! SUPPORT. What the meanings and the step can do, said once: the flags after `setcc`, the shared operations of
the families, that every meaning answers a next state, and the cases of a step. -/

namespace Sys2Proof.Machine

open Sys2Proof.Safety

/-! ## The condition codes -/

theorem getLsbD_15_eq_neg (v : Word) : v.getLsbD 15 = decide (v.toInt < 0) := by
  have h : v.getLsbD 15 = v.msb := (BitVec.msb_eq_getLsbD_last v).symm
  rw [h, BitVec.msb_eq_toInt]

theorem eq_zero_iff_toInt (v : Word) : v = 0#16 ↔ v.toInt = 0 := by
  constructor
  · rintro rfl; rfl
  · intro h; exact BitVec.eq_of_toInt_eq h

/-- After `setcc(v)` the flags are those of `v` (R28). -/
theorem State.setcc_flagsOf (s : State) (v : Word) : FlagsOf v (s.setcc v) := by
  have hz := eq_zero_iff_toInt v
  refine ⟨getLsbD_15_eq_neg v, ?_, ?_⟩
  · simp only [State.setcc_psr, PSR.setcc]
    by_cases h : v = 0#16 <;> simp [h, ← hz]
  · simp only [State.setcc_psr, PSR.setcc, getLsbD_15_eq_neg]
    by_cases h : v = 0#16
    · simp [h]
    · have hne : v.toInt ≠ 0 := fun e => h (hz.mpr e)
      by_cases hn : v.toInt < 0
      · have : ¬ 0 < v.toInt := by omega
        simp [hn, this]
      · have : 0 < v.toInt := by omega
        simp [h, hn, this]

/-- Write of a result: register, flags, and nothing else of the state (R29). -/
theorem State.writeResult_spec (s : State) (dr : RegNum) (v : Word) :
    (s.writeResult dr v).reg dr = v ∧ KeepsRegs [dr] s (s.writeResult dr v) ∧
    FlagsOf v (s.writeResult dr v) ∧ KeepsPrivilege s (s.writeResult dr v) ∧
    KeepsHostSide s (s.writeResult dr v) ∧ KeepsMemory s (s.writeResult dr v) ∧
    (s.writeResult dr v).pc = s.pc := by
  refine ⟨?_, ?_, State.setcc_flagsOf _ v, ⟨rfl, rfl, rfl, rfl⟩, ⟨rfl, rfl, rfl⟩, ⟨fun _ => rfl, rfl⟩, rfl⟩
  · simp [State.writeResult]
  · intro r hr
    have hr' : r ≠ dr := by simpa using hr
    simp [State.writeResult, hr']

/-- A load through the decoder: the word at `ea` in `x[dr]`, the flags from it, and the side effect of the
read (R171). -/
theorem State.loadFrom_eq (s : State) (dr : RegNum) (ea : Word) :
    s.loadFrom dr ea = (s.afterMemRead ea).writeResult dr (s.rawRead ea) := rfl

/-- Everything that the trap operation does (R180). -/
theorem State.trapTo_spec (s : State) (v : Vector8) : EntersTrap v s (s.trapTo v) := by
  have h : s.trapTo v = (s.advance.setReg 7#3 (s.pc + 1#16)).switchFromUser.setPc
      (s.rawRead (v.setWidth 16)) := by
    simp only [State.trapTo, State.memRead_snd, State.memRead_fst,
      State.afterMemRead_of_ne (trapVectorCell_ne_kbdr v), State.switchFromUser_rawRead]
    rfl
  have h67 : ¬ (6#3 : RegNum) = 7#3 := by decide
  have h76 : ¬ (7#3 : RegNum) = 6#3 := by decide
  have hstack : entryStack (s.advance.setReg 7#3 (s.pc + 1#16)) = entryStack s := by
    unfold entryStack; simp [h67]
  have husp : entryUsp (s.advance.setReg 7#3 (s.pc + 1#16)) = entryUsp s := by
    unfold entryUsp; simp [h67]
  rw [h]
  refine ⟨?_, ?_, ?_, ?_, ?_, ?_, ?_, ?_, ?_, ?_, ?_⟩
  · simp [h76]
  · simp [hstack]
  · intro r hr
    have hr6 : r ≠ 6#3 := fun e => hr (by simp [e])
    have hr7 : r ≠ 7#3 := fun e => hr (by simp [e])
    simp [hr6, hr7]
  · simp [husp]
  all_goals simp [KeepsFlags, KeepsMemory, KeepsHostSide]

/-! ## Every meaning answers a next state -/

/-- RTI in user mode is the privilege-violation entry (R183). -/
theorem execRti_user {s : State} (h : s.psr.mode = .user) :
    exec .rti s = .next (s.exceptionEntry privilegeViolationVector) := by
  simp only [exec, execRti, h]

/-- RTI in supervisor mode is the return (R182). -/
theorem execRti_supervisor {s : State} (h : s.psr.mode = .supervisor) :
    exec .rti s = .next s.advance.returnFromEntry := by
  simp only [exec, execRti, h]

/-- No instruction stops the machine (R51, R203). -/
theorem exec_next (i : Instr) (s : State) : ∃ t, exec i s = .next t := by
  cases i
  case rti =>
    cases h : s.psr.mode
    · exact ⟨_, execRti_user h⟩
    · exact ⟨_, execRti_supervisor h⟩
  all_goals exact ⟨_, rfl⟩

/-! ## The step -/

/-- Where step 1 finds an exception, the meaning of the word is the entry of its vector (R140, R141). -/
theorem exec_of_exceptionCheck {s : State} {v : Vector8}
    (h : exceptionCheck s.wordAtPc s.psr.mode = some v) :
    exec (decode s.wordAtPc) s = .next (s.exceptionEntry v) := by
  unfold exceptionCheck at h
  split at h
  · next hop =>
    rw [(decode_eq_reserved_iff _).mpr hop]
    cases h; rfl
  · split at h
    · next hop =>
      rw [(decode_eq_rti_iff _).mpr hop.1, execRti_user hop.2]
      cases h; rfl
    · cases h

/-- The cases of a step that answers a next state: the clock is enabled, and either step 1 took an exception
and the cycle ended there, or the instruction ran and step 4 followed (R140). -/
theorem step_cases {s t : State} (h : step s = .next t) :
    s.clockEnabled = true ∧
    ((∃ v, exceptionCheck s.wordAtPc s.psr.mode = some v ∧ t = s.exceptionEntry v) ∨
     (exceptionCheck s.wordAtPc s.psr.mode = none ∧
       ∃ u, exec (decode s.wordAtPc) s = .next u ∧ t = u.interruptCheck.1)) := by
  unfold step at h
  cases hc : s.clockEnabled
  · simp [hc] at h
  · refine ⟨rfl, ?_⟩
    obtain ⟨u, hu⟩ := exec_next (decode s.wordAtPc) s
    simp only [hc, cond_true, State.cycleState, State.cycle, hu] at h
    cases hx : exceptionCheck s.wordAtPc s.psr.mode with
    | some v =>
      simp only [hx] at h
      have := exec_of_exceptionCheck hx
      rw [hu] at this
      cases this; cases h
      exact .inl ⟨v, rfl, rfl⟩
    | none =>
      simp only [hx] at h
      cases h
      exact .inr ⟨rfl, u, hu, rfl⟩

/-- Step 4 either takes the latched interrupt or changes nothing (R212). -/
theorem State.interruptCheck_cases (s : State) :
    (s.irq.asserted = true ∧ s.psr.pl < s.irq.pl ∧ s.interruptCheck = (s.interruptEntry, .tookInterrupt)) ∨
    (¬ (s.irq.asserted = true ∧ s.psr.pl < s.irq.pl) ∧ s.interruptCheck = (s, .normal)) := by
  unfold State.interruptCheck State.interruptEligible
  by_cases h : s.irq.asserted = true ∧ s.psr.pl < s.irq.pl
  · exact .inl ⟨h.1, h.2, by simp [h.1, h.2]⟩
  · refine .inr ⟨h, ?_⟩
    by_cases ha : s.irq.asserted = true
    · have : ¬ s.psr.pl < s.irq.pl := fun e => h ⟨ha, e⟩
      simp [this]
    · simp [ha]

/-! ## The canonical form of memory through the operations -/

theorem State.afterMemRead_wf {s : State} (h : s.mem.wf) (a : Word) : (s.afterMemRead a).mem.wf := by
  unfold State.afterMemRead
  split
  · exact Memory.write_wf h _ _
  · exact h

theorem State.memWrite_wf {s : State} (h : s.mem.wf) (a v : Word) : (s.memWrite a v).mem.wf := by
  unfold State.memWrite
  dsimp only
  split
  · exact Memory.write_wf (Memory.write_wf h _ _) _ _
  · exact Memory.write_wf h _ _

theorem State.push_wf {s : State} (h : s.mem.wf) (v : Word) : (s.push v).mem.wf := by
  rw [State.push_eq]
  exact State.memWrite_wf (s := s.setReg 6#3 (s.reg 6#3 - 1#16)) h _ _

theorem State.pushFrame_wf {s : State} (h : s.mem.wf) : s.pushFrame.mem.wf := by
  unfold State.pushFrame
  exact State.push_wf (State.push_wf (by simpa using h) _) _

theorem State.exceptionEntry_wf {s : State} (h : s.mem.wf) (v : Vector8) : (s.exceptionEntry v).mem.wf := by
  unfold State.exceptionEntry
  rw [State.jumpThroughVector_eq]
  show s.pushFrame.mem.wf
  exact State.pushFrame_wf h

theorem State.interruptEntry_wf {s : State} (h : s.mem.wf) : s.interruptEntry.mem.wf := by
  unfold State.interruptEntry
  rw [State.jumpThroughVector_eq]
  show s.pushFrame.mem.wf
  exact State.pushFrame_wf h

end Sys2Proof.Machine
end

