-- ==== Sys2Proof/Laws/Frame.lean ====
section
/-! SUPPORT. What no instruction does, said once over all of them: none names the interrupt latch, the breakpoint
set or the launch data, none breaks the canonical form of memory, and none but RTI writes the priority or
`saved_ssp`. -/

namespace Sys2Proof.Machine

open Sys2Proof.Safety

/-! ## The shared operations -/

theorem State.loadFrom_keepsHostSide (s : State) (dr : RegNum) (ea : Word) :
    KeepsHostSide s (s.loadFrom dr ea) := by
  rw [State.loadFrom_eq]; simp [KeepsHostSide, State.writeResult]

theorem State.branch_keepsHostSide (s : State) (n z p : Bool) (off : BitVec 9) :
    KeepsHostSide s (s.branch n z p off) := by
  unfold State.branch; split <;> exact ⟨rfl, rfl, rfl⟩

theorem State.trapTo_keepsHostSide (s : State) (v : Vector8) : KeepsHostSide s (s.trapTo v) :=
  (s.trapTo_spec v).2.2.2.2.2.2.2.2.2.2

theorem State.exceptionEntry_keepsHostSide (s : State) (v : Vector8) :
    KeepsHostSide s (s.exceptionEntry v) := by
  obtain ⟨⟨-, -, -, -, -, -, -, hb, hl⟩, -, -, -, hi⟩ := s.exceptionEntry_spec v
  exact ⟨hi, hb, hl⟩

theorem State.loadFrom_wf {s : State} (h : s.mem.wf) (dr : RegNum) (ea : Word) : (s.loadFrom dr ea).mem.wf := by
  rw [State.loadFrom_eq]; exact State.afterMemRead_wf h _

theorem State.branch_wf {s : State} (h : s.mem.wf) (n z p : Bool) (off : BitVec 9) :
    (s.branch n z p off).mem.wf := by
  unfold State.branch; split <;> exact h

theorem State.trapTo_wf {s : State} (h : s.mem.wf) (v : Vector8) : (s.trapTo v).mem.wf := by
  show (State.afterMemRead _ _).mem.wf
  exact State.afterMemRead_wf (by simpa using h) _

theorem State.returnFromEntry_wf {s : State} (h : s.mem.wf) : s.returnFromEntry.mem.wf := by
  have first : (s.pop.2.setPc s.pop.1).mem.wf := by
    simp only [State.pop_snd]; exact State.afterMemRead_wf h _
  have second : (s.pop.2.setPc s.pop.1).pop.2.mem.wf := by
    rw [State.pop_snd]; exact State.afterMemRead_wf first _
  unfold State.returnFromEntry State.switchToUser
  dsimp only
  split <;> exact second

/-- `u` has the priority and `saved_ssp` of `s`, and either its mode and `saved_usp` too, or it is in supervisor
mode with `saved_usp` as an entry from `s` leaves it. -/
def KeepsOrRaisesPrivilege (s u : State) : Prop :=
  u.psr.pl = s.psr.pl ∧ u.savedSsp = s.savedSsp ∧
  ((u.psr.mode = s.psr.mode ∧ u.savedUsp = s.savedUsp) ∨
    (u.psr.mode = .supervisor ∧ u.savedUsp = entryUsp s))

theorem State.branch_privilege (s : State) (n z p : Bool) (off : BitVec 9) :
    KeepsOrRaisesPrivilege s (s.branch n z p off) := by
  unfold State.branch; split <;> exact ⟨rfl, rfl, .inl ⟨rfl, rfl⟩⟩

theorem State.trapTo_privilege (s : State) (v : Vector8) : KeepsOrRaisesPrivilege s (s.trapTo v) := by
  obtain ⟨-, -, -, hu, hs, hm, hp, -⟩ := s.trapTo_spec v
  exact ⟨hp, hs, .inr ⟨hm, hu⟩⟩

theorem State.exceptionEntry_privilege (s : State) (v : Vector8) :
    KeepsOrRaisesPrivilege s (s.exceptionEntry v) := by
  obtain ⟨⟨-, -, hu, hs, -⟩, hm, hp, -⟩ := s.exceptionEntry_spec v
  exact ⟨hp, hs, .inr ⟨hm, hu⟩⟩

/-! ## Every instruction -/

/-- No instruction writes the interrupt latch, the breakpoint set or the launch data (R32, R36, R37). -/
theorem exec_keepsHostSide {i : Instr} {s u : State} (h : exec i s = .next u) : KeepsHostSide s u := by
  cases i
  case rti =>
    cases hm : s.psr.mode
    · rw [execRti_user hm] at h; cases h; exact s.exceptionEntry_keepsHostSide _
    · rw [execRti_supervisor hm] at h; cases h
      exact s.advance.returnFromEntry_spec.2.2.2.2.2.2.2
  case reserved => cases h; exact s.exceptionEntry_keepsHostSide _
  case ld | ldr => cases h; exact s.advance.loadFrom_keepsHostSide _ _
  case ldi dr off =>
    cases h
    obtain ⟨hi, hb, hl⟩ := (s.advance.indirect off).2.loadFrom_keepsHostSide dr (s.advance.indirect off).1
    refine ⟨hi.trans ?_, hb.trans ?_, hl.trans ?_⟩ <;> simp [State.indirect]
  case st | str => cases h; simp [KeepsHostSide]
  case sti => cases h; simp [KeepsHostSide, State.indirect]
  case br | brn | brz | brp | brnz | brnp | brzp | brnzp | brBare =>
    cases h; exact s.branch_keepsHostSide _ _ _ _
  case trap | getc | out | puts | input | putsp | halt => cases h; exact s.trapTo_keepsHostSide _
  all_goals (cases h; exact ⟨rfl, rfl, rfl⟩)

/-- Every instruction keeps the canonical form of memory. -/
theorem exec_wf {i : Instr} {s u : State} (hw : s.mem.wf) (h : exec i s = .next u) : u.mem.wf := by
  cases i
  case rti =>
    cases hm : s.psr.mode
    · rw [execRti_user hm] at h; cases h; exact State.exceptionEntry_wf hw _
    · rw [execRti_supervisor hm] at h; cases h; exact State.returnFromEntry_wf (s := s.advance) hw
  case reserved => cases h; exact State.exceptionEntry_wf hw _
  case ld | ldr => cases h; exact State.loadFrom_wf (s := s.advance) hw _ _
  case ldi => cases h; exact State.loadFrom_wf (State.afterMemRead_wf (s := s.advance) hw _) _ _
  case st | str => cases h; exact State.memWrite_wf (s := s.advance) hw _ _
  case sti => cases h; exact State.memWrite_wf (State.afterMemRead_wf (s := s.advance) hw _) _ _
  case br | brn | brz | brp | brnz | brnp | brzp | brnzp | brBare => cases h; exact State.branch_wf hw _ _ _ _
  case trap | getc | out | puts | input | putsp | halt => cases h; exact State.trapTo_wf hw _
  all_goals (cases h; exact hw)

/-- An instruction other than RTI keeps the priority and `saved_ssp`, and changes the mode and `saved_usp` only by
entering supervisor mode (R27, R31, R221). -/
theorem exec_privilege {i : Instr} {s u : State} (h : exec i s = .next u) (hi : i ≠ .rti) :
    KeepsOrRaisesPrivilege s u := by
  cases i
  case rti => exact absurd rfl hi
  case reserved => cases h; exact s.exceptionEntry_privilege _
  case ld | ldr => cases h; simp [KeepsOrRaisesPrivilege, State.loadFrom_eq, State.writeResult]
  case ldi => cases h; simp [KeepsOrRaisesPrivilege, State.loadFrom_eq, State.writeResult, State.indirect]
  case st | str => cases h; simp [KeepsOrRaisesPrivilege]
  case sti => cases h; simp [KeepsOrRaisesPrivilege, State.indirect]
  case br | brn | brz | brp | brnz | brnp | brzp | brnzp | brBare =>
    cases h; exact s.branch_privilege _ _ _ _
  case trap | getc | out | puts | input | putsp | halt => cases h; exact s.trapTo_privilege _
  all_goals (cases h; exact ⟨rfl, rfl, .inl ⟨rfl, rfl⟩⟩)

end Sys2Proof.Machine
end

