-- ==== Sys2Proof/Laws/PerInstr.lean ====
section
/-! SUPPORT. Facts about every instruction as syntax, one lemma for each constructor. -/

namespace Sys2Proof.Laws

/-- The `canonical_mask` of an instruction's row in opcode_table.json. -/
def canonicalMask : Instr → Word
  | .addReg _ _ _ => 0xF038#16
  | .addImm _ _ _ => 0xF020#16
  | .andReg _ _ _ => 0xF038#16
  | .andImm _ _ _ => 0xF020#16
  | .not _ _ => 0xF03F#16
  | .br _ _ _ _ => 0xF000#16
  | .jmp _ => 0xFE3F#16
  | .jsr _ => 0xF800#16
  | .jsrr _ => 0xFE3F#16
  | .ld _ _ => 0xF000#16
  | .ldi _ _ => 0xF000#16
  | .ldr _ _ _ => 0xF000#16
  | .lea _ _ => 0xF000#16
  | .st _ _ => 0xF000#16
  | .sti _ _ => 0xF000#16
  | .str _ _ _ => 0xF000#16
  | .rti => 0xFFFF#16
  | .trap _ => 0xFF00#16
  | .reserved => 0xF000#16
  | .ret => 0xFFFF#16
  | .getc => 0xFFFF#16
  | .out => 0xFFFF#16
  | .puts => 0xFFFF#16
  | .input => 0xFFFF#16
  | .putsp => 0xFFFF#16
  | .halt => 0xFFFF#16
  | .brn _ => 0xFE00#16
  | .brz _ => 0xFE00#16
  | .brp _ => 0xFE00#16
  | .brnz _ => 0xFE00#16
  | .brnp _ => 0xFE00#16
  | .brzp _ => 0xFE00#16
  | .brnzp _ => 0xFE00#16
  | .brBare _ => 0xFE00#16

/-- The `canonical_match` of an instruction's row in opcode_table.json. -/
def canonicalMatch : Instr → Word
  | .addReg _ _ _ => 0x1000#16
  | .addImm _ _ _ => 0x1020#16
  | .andReg _ _ _ => 0x5000#16
  | .andImm _ _ _ => 0x5020#16
  | .not _ _ => 0x903F#16
  | .br _ _ _ _ => 0x0000#16
  | .jmp _ => 0xC000#16
  | .jsr _ => 0x4800#16
  | .jsrr _ => 0x4000#16
  | .ld _ _ => 0x2000#16
  | .ldi _ _ => 0xA000#16
  | .ldr _ _ _ => 0x6000#16
  | .lea _ _ => 0xE000#16
  | .st _ _ => 0x3000#16
  | .sti _ _ => 0xB000#16
  | .str _ _ _ => 0x7000#16
  | .rti => 0x8000#16
  | .trap _ => 0xF000#16
  | .reserved => 0xD000#16
  | .ret => 0xC1C0#16
  | .getc => 0xF020#16
  | .out => 0xF021#16
  | .puts => 0xF022#16
  | .input => 0xF023#16
  | .putsp => 0xF024#16
  | .halt => 0xF025#16
  | .brn _ => 0x0800#16
  | .brz _ => 0x0400#16
  | .brp _ => 0x0200#16
  | .brnz _ => 0x0C00#16
  | .brnp _ => 0x0A00#16
  | .brzp _ => 0x0600#16
  | .brnzp _ => 0x0E00#16
  | .brBare _ => 0x0E00#16

/-- The encoded word carries the fixed bits of its row in the table of R101. -/
def FixedBits.Statement (i : Instr) : Prop := encode i &&& canonicalMask i = canonicalMatch i

theorem FixedBits.addReg (dr : RegNum) (sr1 : RegNum) (sr2 : RegNum) : FixedBits.Statement (.addReg dr sr1 sr2) := by
  refine word_ext fun i hi => ?_
  simp only [encode, canonicalMask, canonicalMatch]
  interval_cases i <;> simp [-BitVec.getLsbD_eq_getElem]

theorem FixedBits.addImm (dr : RegNum) (sr1 : RegNum) (imm5 : BitVec 5) : FixedBits.Statement (.addImm dr sr1 imm5) := by
  refine word_ext fun i hi => ?_
  simp only [encode, canonicalMask, canonicalMatch]
  interval_cases i <;> simp [-BitVec.getLsbD_eq_getElem]

theorem FixedBits.andReg (dr : RegNum) (sr1 : RegNum) (sr2 : RegNum) : FixedBits.Statement (.andReg dr sr1 sr2) := by
  refine word_ext fun i hi => ?_
  simp only [encode, canonicalMask, canonicalMatch]
  interval_cases i <;> simp [-BitVec.getLsbD_eq_getElem]

theorem FixedBits.andImm (dr : RegNum) (sr1 : RegNum) (imm5 : BitVec 5) : FixedBits.Statement (.andImm dr sr1 imm5) := by
  refine word_ext fun i hi => ?_
  simp only [encode, canonicalMask, canonicalMatch]
  interval_cases i <;> simp [-BitVec.getLsbD_eq_getElem]

theorem FixedBits.not (dr : RegNum) (sr : RegNum) : FixedBits.Statement (.not dr sr) := by
  refine word_ext fun i hi => ?_
  simp only [encode, canonicalMask, canonicalMatch]
  interval_cases i <;> simp [-BitVec.getLsbD_eq_getElem]

theorem FixedBits.br (n : Bool) (z : Bool) (p : Bool) (off : BitVec 9) : FixedBits.Statement (.br n z p off) := by
  refine word_ext fun i hi => ?_
  simp only [encode, canonicalMask, canonicalMatch]
  interval_cases i <;> simp [-BitVec.getLsbD_eq_getElem]

theorem FixedBits.jmp (base : RegNum) : FixedBits.Statement (.jmp base) := by
  refine word_ext fun i hi => ?_
  simp only [encode, canonicalMask, canonicalMatch]
  interval_cases i <;> simp [-BitVec.getLsbD_eq_getElem]

theorem FixedBits.jsr (off : BitVec 11) : FixedBits.Statement (.jsr off) := by
  refine word_ext fun i hi => ?_
  simp only [encode, canonicalMask, canonicalMatch]
  interval_cases i <;> simp [-BitVec.getLsbD_eq_getElem]

theorem FixedBits.jsrr (base : RegNum) : FixedBits.Statement (.jsrr base) := by
  refine word_ext fun i hi => ?_
  simp only [encode, canonicalMask, canonicalMatch]
  interval_cases i <;> simp [-BitVec.getLsbD_eq_getElem]

theorem FixedBits.ld (dr : RegNum) (off : BitVec 9) : FixedBits.Statement (.ld dr off) := by
  refine word_ext fun i hi => ?_
  simp only [encode, canonicalMask, canonicalMatch]
  interval_cases i <;> simp [-BitVec.getLsbD_eq_getElem]

theorem FixedBits.ldi (dr : RegNum) (off : BitVec 9) : FixedBits.Statement (.ldi dr off) := by
  refine word_ext fun i hi => ?_
  simp only [encode, canonicalMask, canonicalMatch]
  interval_cases i <;> simp [-BitVec.getLsbD_eq_getElem]

theorem FixedBits.ldr (dr : RegNum) (base : RegNum) (off : BitVec 6) : FixedBits.Statement (.ldr dr base off) := by
  refine word_ext fun i hi => ?_
  simp only [encode, canonicalMask, canonicalMatch]
  interval_cases i <;> simp [-BitVec.getLsbD_eq_getElem]

theorem FixedBits.lea (dr : RegNum) (off : BitVec 9) : FixedBits.Statement (.lea dr off) := by
  refine word_ext fun i hi => ?_
  simp only [encode, canonicalMask, canonicalMatch]
  interval_cases i <;> simp [-BitVec.getLsbD_eq_getElem]

theorem FixedBits.st (sr : RegNum) (off : BitVec 9) : FixedBits.Statement (.st sr off) := by
  refine word_ext fun i hi => ?_
  simp only [encode, canonicalMask, canonicalMatch]
  interval_cases i <;> simp [-BitVec.getLsbD_eq_getElem]

theorem FixedBits.sti (sr : RegNum) (off : BitVec 9) : FixedBits.Statement (.sti sr off) := by
  refine word_ext fun i hi => ?_
  simp only [encode, canonicalMask, canonicalMatch]
  interval_cases i <;> simp [-BitVec.getLsbD_eq_getElem]

theorem FixedBits.str (sr : RegNum) (base : RegNum) (off : BitVec 6) : FixedBits.Statement (.str sr base off) := by
  refine word_ext fun i hi => ?_
  simp only [encode, canonicalMask, canonicalMatch]
  interval_cases i <;> simp [-BitVec.getLsbD_eq_getElem]

theorem FixedBits.rti : FixedBits.Statement .rti := by
  show (_ : Word) = _
  decide

theorem FixedBits.trap (v : Vector8) : FixedBits.Statement (.trap v) := by
  refine word_ext fun i hi => ?_
  simp only [encode, canonicalMask, canonicalMatch]
  interval_cases i <;> simp [-BitVec.getLsbD_eq_getElem]

theorem FixedBits.reserved : FixedBits.Statement .reserved := by
  show (_ : Word) = _
  decide

theorem FixedBits.ret : FixedBits.Statement .ret := by
  show (_ : Word) = _
  decide

theorem FixedBits.getc : FixedBits.Statement .getc := by
  show (_ : Word) = _
  decide

theorem FixedBits.out : FixedBits.Statement .out := by
  show (_ : Word) = _
  decide

theorem FixedBits.puts : FixedBits.Statement .puts := by
  show (_ : Word) = _
  decide

theorem FixedBits.input : FixedBits.Statement .input := by
  show (_ : Word) = _
  decide

theorem FixedBits.putsp : FixedBits.Statement .putsp := by
  show (_ : Word) = _
  decide

theorem FixedBits.halt : FixedBits.Statement .halt := by
  show (_ : Word) = _
  decide

theorem FixedBits.brn (off : BitVec 9) : FixedBits.Statement (.brn off) := by
  refine word_ext fun i hi => ?_
  simp only [encode, canonicalMask, canonicalMatch]
  interval_cases i <;> simp [-BitVec.getLsbD_eq_getElem]

theorem FixedBits.brz (off : BitVec 9) : FixedBits.Statement (.brz off) := by
  refine word_ext fun i hi => ?_
  simp only [encode, canonicalMask, canonicalMatch]
  interval_cases i <;> simp [-BitVec.getLsbD_eq_getElem]

theorem FixedBits.brp (off : BitVec 9) : FixedBits.Statement (.brp off) := by
  refine word_ext fun i hi => ?_
  simp only [encode, canonicalMask, canonicalMatch]
  interval_cases i <;> simp [-BitVec.getLsbD_eq_getElem]

theorem FixedBits.brnz (off : BitVec 9) : FixedBits.Statement (.brnz off) := by
  refine word_ext fun i hi => ?_
  simp only [encode, canonicalMask, canonicalMatch]
  interval_cases i <;> simp [-BitVec.getLsbD_eq_getElem]

theorem FixedBits.brnp (off : BitVec 9) : FixedBits.Statement (.brnp off) := by
  refine word_ext fun i hi => ?_
  simp only [encode, canonicalMask, canonicalMatch]
  interval_cases i <;> simp [-BitVec.getLsbD_eq_getElem]

theorem FixedBits.brzp (off : BitVec 9) : FixedBits.Statement (.brzp off) := by
  refine word_ext fun i hi => ?_
  simp only [encode, canonicalMask, canonicalMatch]
  interval_cases i <;> simp [-BitVec.getLsbD_eq_getElem]

theorem FixedBits.brnzp (off : BitVec 9) : FixedBits.Statement (.brnzp off) := by
  refine word_ext fun i hi => ?_
  simp only [encode, canonicalMask, canonicalMatch]
  interval_cases i <;> simp [-BitVec.getLsbD_eq_getElem]

theorem FixedBits.brBare (off : BitVec 9) : FixedBits.Statement (.brBare off) := by
  refine word_ext fun i hi => ?_
  simp only [encode, canonicalMask, canonicalMatch]
  interval_cases i <;> simp [-BitVec.getLsbD_eq_getElem]

end Sys2Proof.Laws
end

