-- ==== Sys2Proof/Laws/RunControl.lean ====
section
/-! SUPPORT. What the host's loops read: the clock-enable bit after it is set or cleared, the test after a cycle, and
the call depth of R232 as the model computes it. -/

namespace Sys2Proof.Machine

open Sys2Proof.Safety

@[simp] theorem State.setClockEnable_clockEnabled (s : State) : s.setClockEnable.clockEnabled = true := by
  simp [State.setClockEnable, State.clockEnabled, State.rawWrite, State.rawRead, bit15]

@[simp] theorem State.clearClockEnable_clockEnabled (s : State) : s.clearClockEnable.clockEnabled = false := by
  simp [State.clearClockEnable, State.clockEnabled, State.rawWrite, State.rawRead]

/-- The model's test after a cycle is the one of R228. -/
theorem State.loopStops_iff (t : State) : t.loopStops = true ↔ ¬ LoopGoesOn t := by
  unfold State.loopStops LoopGoesOn
  cases t.clockEnabled <;> simp

/-- No word counts both as a call and as a return. -/
theorem not_returnWord_of_callWord {w : Word} : CallWord w → ¬ ReturnWord w := by
  rintro (h | h) (⟨h', -⟩ | h') <;> rw [h] at h' <;> exact absurd h' (by decide)

theorem callDelta_of_call {w : Word} (h : CallWord w) : callDelta w = 1 := if_pos h

theorem callDelta_of_return {w : Word} (h : ReturnWord w) : callDelta w = -1 :=
  (if_neg (fun c => not_returnWord_of_callWord c h)).trans (if_pos h)

theorem callDelta_of_neither {w : Word} (hc : ¬ CallWord w) (hr : ¬ ReturnWord w) : callDelta w = 0 :=
  (if_neg hc).trans (if_neg hr)

/-- The model's depth is the one that R232 describes. -/
theorem depthAfter_of_depthGoes {w : Word} {r : CycleResult} {d d' : Int} (h : DepthGoes w r d d') :
    depthAfter d w r = d' := by
  obtain ⟨rfl, rfl⟩ | ⟨e, he, hw⟩ := h
  · rfl
  · have delta : d' = d + callDelta w + e := by
      obtain ⟨hc, rfl⟩ | ⟨hr, rfl⟩ | ⟨hc, hr, rfl⟩ := hw
      · rw [callDelta_of_call hc]
      · rw [callDelta_of_return hr]; omega
      · rw [callDelta_of_neither hc hr]; omega
    obtain ⟨rfl, rfl⟩ | ⟨rfl, rfl⟩ := he <;> simp only [depthAfter] <;> omega

end Sys2Proof.Machine
end

