-- ==== Sys2Proof/Tests/Slice0.lean ====
section
/-! SUPPORT. The model's own tests. Expected results are the spec's: the patterns of 30_encoding.md R101, R111 and
R112, and the vectors of 95_test_vectors.md (V1 to V82, S1 to S6), whose numbers the comments give. -/

namespace Sys2Proof.Tests

open Sys2Proof.Machine Sys2Proof.Safety

/-! ## Helpers -/

/-- A start state of 95_test_vectors.md: the Reload state with the clock enabled and, where they differ, another
`pc`, PSR, registers and cells. -/
def start (pc psr : Word) (regs : List (RegNum × Word)) (cells : List (Word × Word)) : State :=
  regs.foldl (fun s r => s.setReg r.1 r.2)
    { State.reset with
      pc := pc
      psr := PSR.ofWord psr
      mem := (({ cells := [] } : Memory).write mcr 0x8000#16).writeAll cells }

/-- The next state of an outcome, if there is one. -/
def nextOf : Host.Outcome State Fault Refusal → Option State
  | .next t => some t
  | .fault _ => none
  | .refused _ => none

/-- The next state and the result of a cycle. -/
def cycleOf : Host.Outcome (State × CycleResult) Fault Refusal → Option (State × CycleResult)
  | .next r => some r
  | .fault _ => none
  | .refused _ => none

/-- The end of a run. -/
def endOf : Host.Outcome RunEnd Fault Refusal → Option RunEnd
  | .next e => some e
  | .fault _ => none
  | .refused _ => none

/-- What a vector's "after" column begins with: a register, the PSR word and the `pc`. -/
def seen (r : RegNum) (t : State) : Word × Word × Word := (t.reg r, t.psr.word, t.pc)

/-! ## WellFormed: each check refuses an ill-formed term -/

theorem test_wellFormed_core : (Instr.addReg 0#3 1#3 2#3).wellFormed = true ∧ Instr.reserved.wellFormed = true ∧
    (Instr.br false false false 0#9).wellFormed = true ∧ (Instr.trap 0x25#8).wellFormed = true := by decide

theorem test_wellFormed_refuses_trap_spellings : Instr.ret.wellFormed = false ∧ Instr.getc.wellFormed = false ∧
    Instr.out.wellFormed = false ∧ Instr.puts.wellFormed = false ∧ Instr.input.wellFormed = false ∧
    Instr.putsp.wellFormed = false ∧ Instr.halt.wellFormed = false := by decide

theorem test_wellFormed_refuses_branch_spellings : (Instr.brn 1#9).wellFormed = false ∧
    (Instr.brz 1#9).wellFormed = false ∧ (Instr.brp 1#9).wellFormed = false ∧ (Instr.brnz 1#9).wellFormed = false ∧
    (Instr.brnp 1#9).wellFormed = false ∧ (Instr.brzp 1#9).wellFormed = false ∧
    (Instr.brnzp 1#9).wellFormed = false ∧ (Instr.brBare 1#9).wellFormed = false := by decide

/-! ## Decode: one word of each row, bit by bit from the patterns of R101 -/

theorem test_decode_addReg : decode 0b0001_010_011_0_00_100#16 = .addReg 2#3 3#3 4#3 := by decide
theorem test_decode_addImm : decode 0b0001_001_010_1_11111#16 = .addImm 1#3 2#3 0b11111#5 := by decide
theorem test_decode_andReg : decode 0b0101_101_110_0_00_111#16 = .andReg 5#3 6#3 7#3 := by decide
theorem test_decode_andImm : decode 0b0101_001_010_1_10000#16 = .andImm 1#3 2#3 0b10000#5 := by decide
theorem test_decode_not : decode 0b1001_011_100_111111#16 = .not 3#3 4#3 := by decide
theorem test_decode_br : decode 0b0000_1_0_1_100000010#16 = .br true false true 0b100000010#9 := by decide
theorem test_decode_br_never : decode 0b0000_0_0_0_111111111#16 = .br false false false 0b111111111#9 := by decide
theorem test_decode_jmp : decode 0b1100_000_010_000000#16 = .jmp 2#3 := by decide
theorem test_decode_jsr : decode 0b0100_1_10000000001#16 = .jsr 0b10000000001#11 := by decide
theorem test_decode_jsrr : decode 0b0100_0_00_011_000000#16 = .jsrr 3#3 := by decide
theorem test_decode_ld : decode 0b0010_001_100000010#16 = .ld 1#3 0b100000010#9 := by decide
theorem test_decode_ldi : decode 0b1010_010_000000001#16 = .ldi 2#3 1#9 := by decide
theorem test_decode_ldr : decode 0b0110_011_100_111111#16 = .ldr 3#3 4#3 0b111111#6 := by decide
theorem test_decode_lea : decode 0b1110_101_111111111#16 = .lea 5#3 0b111111111#9 := by decide
theorem test_decode_st : decode 0b0011_001_000000011#16 = .st 1#3 3#9 := by decide
theorem test_decode_sti : decode 0b1011_001_000000011#16 = .sti 1#3 3#9 := by decide
theorem test_decode_str : decode 0b0111_101_010_011111#16 = .str 5#3 2#3 0b011111#6 := by decide
theorem test_decode_rti : decode 0b1000_000000000000#16 = .rti := by decide
theorem test_decode_trap : decode 0b1111_0000_00100101#16 = .trap 0x25#8 := by decide
theorem test_decode_reserved : decode 0b1101_000000000000#16 = .reserved ∧ decode 0b1101_111111111111#16 = .reserved := by
  decide

/-- The words of the spellings (R111, R112) decode to the core instructions they stand for. -/
theorem test_decode_trap_spellings : decode 0b1100_000_111_000000#16 = Instr.ret.canonical ∧
    decode 0b1111_0000_00100000#16 = Instr.getc.canonical ∧ decode 0b1111_0000_00100001#16 = Instr.out.canonical ∧
    decode 0b1111_0000_00100010#16 = Instr.puts.canonical ∧ decode 0b1111_0000_00100011#16 = Instr.input.canonical ∧
    decode 0b1111_0000_00100100#16 = Instr.putsp.canonical ∧ decode 0b1111_0000_00100101#16 = Instr.halt.canonical := by
  decide

theorem test_decode_branch_spellings : decode 0b0000_1_0_0_000000011#16 = (Instr.brn 3#9).canonical ∧
    decode 0b0000_0_1_0_000000011#16 = (Instr.brz 3#9).canonical ∧
    decode 0b0000_0_0_1_000000011#16 = (Instr.brp 3#9).canonical ∧
    decode 0b0000_1_1_0_000000011#16 = (Instr.brnz 3#9).canonical ∧
    decode 0b0000_1_0_1_000000011#16 = (Instr.brnp 3#9).canonical ∧
    decode 0b0000_0_1_1_000000011#16 = (Instr.brzp 3#9).canonical ∧
    decode 0b0000_1_1_1_000000011#16 = (Instr.brnzp 3#9).canonical ∧
    decode 0b0000_1_1_1_000000011#16 = (Instr.brBare 3#9).canonical := by decide

/-- A fixed field that is not zero or not ones is not looked at (R97; V10, V11, V29, V63, V66). -/
theorem test_decode_ignores_fixed_bits : decode 0x14DC#16 = .addReg 2#3 3#3 4#3 ∧ decode 0x96C0#16 = .not 3#3 3#3 ∧
    decode 0xCFFF#16 = .jmp 7#3 ∧ decode 0xFA25#16 = .trap 0x25#8 ∧ decode 0x8ABC#16 = .rti := by decide

/-- The words of the programs S1, S2, S3 of the source, from the instructions they show. -/
theorem test_encode_scenarios : encode (.andImm 0#3 0#3 0#5) = 0x5020#16 ∧ encode (.addImm 0#3 0#3 5#5) = 0x1025#16 ∧
    encode .halt = 0xF025#16 ∧ encode (.brnzp 1#9) = 0x0E01#16 ∧ encode (.lea 0#3 1#9) = 0xE001#16 ∧
    encode .ret = 0xC1C0#16 := by decide

/-- The words of P1 to P4 from their assembly (95_test_vectors.md Part 3). -/
theorem test_encode_programs : encode (.addReg 0#3 0#3 1#3) = 0x1001#16 ∧ encode (.brp (-3)) = 0x03FD#16 ∧
    encode (.st 0#3 3#9) = 0x3003#16 ∧ encode (.sti 2#3 2#9) = 0xB402#16 ∧ encode (.jsr 3#11) = 0x4803#16 ∧
    encode (.str 7#3 6#3 (-1)) = 0x7FBF#16 ∧ encode (.ldr 7#3 6#3 (-1)) = 0x6FBF#16 ∧
    encode (.not 0#3 0#3) = 0x903F#16 ∧ encode (.ldi 0#3 1#9) = 0xA001#16 ∧ encode .rti = 0x8000#16 := by decide

theorem test_decodeTableWord : decodeTableWord 16 0x1025 = some (.addImm 0#3 0#3 5#5) ∧
    decodeTableWord 17 0x1025 = none ∧ decodeTableWord 16 0x10000 = none := by decide

/-! ## ALU -/

/-- V1. -/
theorem test_add_wraps_signed : (nextOf (step (start 0x3000#16 0x8000#16 [(3#3, 0x7FFF#16), (4#3, 0x0001#16)]
    [(0x3000#16, 0x14C4#16)]))).map (seen 2#3) = some (0x8000#16, 0x8004#16, 0x3001#16) := by decide
/-- V2. -/
theorem test_add_loses_carry : (nextOf (step (start 0x3000#16 0x8000#16 [(3#3, 0xFFFF#16), (4#3, 0x0001#16)]
    [(0x3000#16, 0x14C4#16)]))).map (seen 2#3) = some (0x0000#16, 0x8002#16, 0x3001#16) := by decide
/-- V5. -/
theorem test_addImm_extends_sign : (nextOf (step (start 0x3000#16 0x8000#16 [(0#3, 0x0010#16)]
    [(0x3000#16, 0x1030#16)]))).map (seen 0#3) = some (0x0000#16, 0x8002#16, 0x3001#16) := by decide
/-- V12. -/
theorem test_addImm_same_register : (nextOf (step (start 0x3000#16 0x8000#16 [(6#3, 0x0000#16)]
    [(0x3000#16, 0x1DBF#16)]))).map (seen 6#3) = some (0xFFFF#16, 0x8004#16, 0x3001#16) := by decide
/-- V6. -/
theorem test_and : (nextOf (step (start 0x3000#16 0x8000#16 [(6#3, 0xF0F0#16), (7#3, 0x0FF0#16)]
    [(0x3000#16, 0x5B87#16)]))).map (seen 5#3) = some (0x00F0#16, 0x8001#16, 0x3001#16) := by decide
/-- V7. -/
theorem test_andImm_extends_sign : (nextOf (step (start 0x3000#16 0x8000#16 [(2#3, 0x8421#16)]
    [(0x3000#16, 0x52BF#16)]))).map (seen 1#3) = some (0x8421#16, 0x8004#16, 0x3001#16) := by decide
/-- V9. -/
theorem test_not : (nextOf (step (start 0x3000#16 0x8000#16 [(3#3, 0x0000#16)]
    [(0x3000#16, 0x96FF#16)]))).map (seen 3#3) = some (0xFFFF#16, 0x8004#16, 0x3001#16) := by decide

/-! ## Control transfer -/

/-- V20. -/
theorem test_br_on_z : (nextOf (step (start 0x3005#16 0x8002#16 [] [(0x3005#16, 0x05FE#16)]))).map State.pc =
      some 0x3004#16 ∧
    (nextOf (step (start 0x3005#16 0x8001#16 [] [(0x3005#16, 0x05FE#16)]))).map State.pc = some 0x3006#16 := by
  decide
/-- V23: BRnzp is not taken on cleared flags, and V22: the address wraps. -/
theorem test_br_on_cleared_flags : (nextOf (step (start 0x3000#16 0x8000#16 [] [(0x3000#16, 0x0E01#16)]))).map
      State.pc = some 0x3001#16 ∧
    (nextOf (step (start 0xFFFF#16 0x8004#16 [] [(0xFFFF#16, 0x0E01#16)]))).map State.pc = some 0x0001#16 := by
  decide
/-- V27. -/
theorem test_jmp : (nextOf (step (start 0x3000#16 0x8000#16 [(2#3, 0xFE00#16)] [(0x3000#16, 0xC080#16)]))).map
    State.pc = some 0xFE00#16 := by decide
/-- V30 and V31. -/
theorem test_jsr : (nextOf (step (start 0x3000#16 0x8004#16 [] [(0x3000#16, 0x4BFF#16)]))).map (seen 7#3) =
      some (0x3001#16, 0x8004#16, 0x3400#16) ∧
    (nextOf (step (start 0x3000#16 0x8000#16 [] [(0x3000#16, 0x4C00#16)]))).map (seen 7#3) =
      some (0x3001#16, 0x8000#16, 0x2C01#16) := by decide
/-- V33. -/
theorem test_jsrr : (nextOf (step (start 0x3010#16 0x8000#16 [(3#3, 0x5000#16)] [(0x3010#16, 0x40C0#16)]))).map
    (seen 7#3) = some (0x3011#16, 0x8000#16, 0x5000#16) := by decide
/-- V34: the target is the old R7. -/
theorem test_jsrr_r7 : (nextOf (step (start 0x3000#16 0x8000#16 [(7#3, 0x4000#16)] [(0x3000#16, 0x41C0#16)]))).map
    (seen 7#3) = some (0x3001#16, 0x8000#16, 0x4000#16) := by decide
/-- V28, the spelling itself. -/
theorem test_ret : (nextOf (exec .ret (start 0x3000#16 0x8000#16 [(7#3, 0x3003#16)] []))).map State.pc =
    some 0x3003#16 := by decide
/-- R111: which flag each single-flag spelling looks at; offset +2 from 0x3000. -/
theorem test_branch_spellings_one_flag : (nextOf (exec (.brn 2#9) (start 0x3000#16 0x8004#16 [] []))).map State.pc =
      some 0x3003#16 ∧
    (nextOf (exec (.brz 2#9) (start 0x3000#16 0x8004#16 [] []))).map State.pc = some 0x3001#16 ∧
    (nextOf (exec (.brp 2#9) (start 0x3000#16 0x8004#16 [] []))).map State.pc = some 0x3001#16 ∧
    (nextOf (exec (.brz 2#9) (start 0x3000#16 0x8002#16 [] []))).map State.pc = some 0x3003#16 ∧
    (nextOf (exec (.brp 2#9) (start 0x3000#16 0x8001#16 [] []))).map State.pc = some 0x3003#16 := by decide
/-- R111, the spellings of two flags and of three. -/
theorem test_branch_spellings_more_flags : (nextOf (exec (.brnz 2#9) (start 0x3000#16 0x8001#16 [] []))).map
      State.pc = some 0x3001#16 ∧
    (nextOf (exec (.brnp 2#9) (start 0x3000#16 0x8002#16 [] []))).map State.pc = some 0x3001#16 ∧
    (nextOf (exec (.brzp 2#9) (start 0x3000#16 0x8004#16 [] []))).map State.pc = some 0x3001#16 ∧
    (nextOf (exec (.brnzp 2#9) (start 0x3000#16 0x8000#16 [] []))).map State.pc = some 0x3001#16 ∧
    (nextOf (exec (.brBare 2#9) (start 0x3000#16 0x8001#16 [] []))).map State.pc = some 0x3003#16 := by decide

/-! ## Loads, stores, LEA -/

/-- V41: a load of its own word. -/
theorem test_ld : (nextOf (step (start 0x3000#16 0x8000#16 [] [(0x3000#16, 0x23FF#16)]))).map (seen 1#3) =
    some (0x23FF#16, 0x8001#16, 0x3001#16) := by decide
/-- V40. -/
theorem test_ld_negative : (nextOf (step (start 0x3000#16 0x8000#16 []
    [(0x3000#16, 0x2202#16), (0x3003#16, 0x8001#16)]))).map (seen 1#3) =
    some (0x8001#16, 0x8004#16, 0x3001#16) := by decide
/-- V42: the data read of KBDR clears the ready bit and keeps the interrupt-enable. -/
theorem test_ldi_reads_key : (nextOf (step (start 0x0500#16 0x0400#16 [(6#3, 0x2FFE#16)]
    [(0x0500#16, 0xA001#16), (0x0502#16, 0xFE02#16), (0xFE02#16, 0x0041#16), (0xFE00#16, 0xC000#16)]))).map
    (fun t => (seen 0#3 t, t.rawRead 0xFE00#16)) =
    some ((0x0041#16, 0x0401#16, 0x0501#16), 0x4000#16) := by decide
/-- V45: the address wraps. -/
theorem test_ldr_wraps : (nextOf (step (start 0x3000#16 0x8000#16 [(1#3, 0x0000#16)]
    [(0x3000#16, 0x6A7F#16), (0xFFFF#16, 0x00AA#16)]))).map (seen 5#3) =
    some (0x00AA#16, 0x8001#16, 0x3001#16) := by decide
/-- V46: the base is read before it is written. -/
theorem test_ldr_same_register : (nextOf (step (start 0x3000#16 0x8000#16 [(1#3, 0x4000#16)]
    [(0x3000#16, 0x6240#16), (0x4000#16, 0x1234#16)]))).map (seen 1#3) =
    some (0x1234#16, 0x8001#16, 0x3001#16) := by decide
/-- V48, but for the flags, which are free. -/
theorem test_lea : (nextOf (step (start 0x3000#16 0x8000#16 [] [(0x3000#16, 0xE001#16)]))).map
    (fun t => (t.reg 0#3, t.pc, t.psr.mode)) = some (0x3002#16, 0x3001#16, .user) := by decide
/-- V50: the `pc` and the result cross 0x8000; the flags are those of 0x8000 or as before. -/
theorem test_lea_flags : (nextOf (exec (.lea 0#3 0#9) (start 0x7FFF#16 0x8000#16 [] []))).map
    (fun t => (t.reg 0#3, t.pc, t.psr.word == 0x8004#16 || t.psr.word == 0x8000#16)) =
    some (0x8000#16, 0x8000#16, true) := by
  simp only [exec, execLea]; cases Config.leaSetsCC <;> decide
/-- V53: a store over the instruction itself. -/
theorem test_st : (nextOf (step (start 0x3000#16 0x8000#16 [(1#3, 0xABCD#16)] [(0x3000#16, 0x33FF#16)]))).map
    (fun t => (t.rawRead 0x3000#16, t.psr.word, t.pc)) = some (0xABCD#16, 0x8000#16, 0x3001#16) := by decide
/-- V55: a store to DDR. -/
theorem test_sti_shows : (nextOf (step (start 0x3000#16 0x8000#16 [(0#3, 0x1241#16)]
    [(0x3000#16, 0xB001#16), (0x3002#16, 0xFE06#16)]))).map
    (fun t => (t.rawRead 0xFE06#16, t.display, t.rawRead 0xFE04#16)) =
    some (0x1241#16, [0x41#8], 0x8000#16) := by decide
/-- V57: the pointer read at KBDR clears the ready bit. -/
theorem test_sti_pointer_at_kbdr : (nextOf (step (start 0xFDF0#16 0x8000#16 [(0#3, 0x0007#16)]
    [(0xFDF0#16, 0xB011#16), (0xFE02#16, 0x3100#16), (0xFE00#16, 0x8000#16)]))).map
    (fun t => (t.rawRead 0xFE00#16, t.rawRead 0x3100#16, t.pc)) =
    some (0x0000#16, 0x0007#16, 0xFDF1#16) := by decide
/-- V58: the address wraps. -/
theorem test_str_wraps : (nextOf (step (start 0x3000#16 0x8000#16 [(2#3, 0xFFF0#16), (5#3, 0xBEEF#16)]
    [(0x3000#16, 0x7A9F#16)]))).map (fun t => (t.rawRead 0x000F#16, t.reg 2#3, t.pc)) =
    some (0xBEEF#16, 0xFFF0#16, 0x3001#16) := by decide
/-- V5A: a store that clears the clock-enable bit, after which the core is stuck. -/
theorem test_str_halts : (nextOf (step (start 0x3000#16 0x8000#16 [(2#3, 0xFFFE#16), (0#3, 0x7FFF#16)]
    [(0x3000#16, 0x7080#16)]))).map (fun t => (t.rawRead 0xFFFE#16, t.pc, (nextOf (step t)).isNone)) =
    some (0x7FFF#16, 0x3001#16, true) := by decide

/-! ## System instructions, exceptions and interrupts -/

/-- V61. -/
theorem test_trap_from_user : (nextOf (step (start 0x3000#16 0x8001#16 [(6#3, 0xFDFF#16), (7#3, 0x1111#16)]
    [(0x3000#16, 0xF025#16), (0x0025#16, 0x0520#16)]))).map
    (fun t => (seen 7#3 t, t.reg 6#3, t.savedUsp)) =
    some ((0x3001#16, 0x0001#16, 0x0520#16), 0x3000#16, 0xFDFF#16) := by decide
/-- V62. -/
theorem test_trap_from_supervisor : (nextOf (step (start 0x0530#16 0x0302#16 [(6#3, 0x2FF0#16), (7#3, 0x1111#16)]
    [(0x0530#16, 0xF021#16), (0x0021#16, 0x0440#16)]))).map
    (fun t => (seen 7#3 t, t.reg 6#3, t.savedSsp)) =
    some ((0x0531#16, 0x0302#16, 0x0440#16), 0x2FF0#16, 0x3000#16) := by decide
/-- R112: the vector of each trap spelling. -/
theorem test_trap_spellings : ([Instr.getc, .out, .puts, .input, .putsp, .halt].map (fun i =>
    (nextOf (exec i (start 0x3000#16 0x8000#16 [] [(0x0020#16, 0x0420#16), (0x0021#16, 0x0421#16),
      (0x0022#16, 0x0422#16), (0x0023#16, 0x0423#16), (0x0024#16, 0x0424#16), (0x0025#16, 0x0425#16)]))).map
      State.pc)) = [some 0x0420#16, some 0x0421#16, some 0x0422#16, some 0x0423#16, some 0x0424#16,
      some 0x0425#16] := by decide
/-- V64. -/
theorem test_rti_to_user : (nextOf (step (start 0x0501#16 0x0401#16 [(6#3, 0x2FFE#16)]
    [(0x0501#16, 0x8000#16), (0x2FFE#16, 0x3002#16), (0x2FFF#16, 0x8001#16)]))).map
    (fun t => (seen 6#3 t, t.savedSsp)) = some ((0x0000#16, 0x8001#16, 0x3002#16), 0x3000#16) := by decide
/-- V60. -/
theorem test_rti_in_user_mode : (cycleOf (State.cycle (start 0x3000#16 0x8002#16 [(6#3, 0xBEEF#16)]
    [(0x3000#16, 0x8000#16), (0x0100#16, 0x0700#16)]))).map
    (fun r => (seen 6#3 r.1, r.1.savedUsp, r.1.rawRead 0x2FFF#16, r.1.rawRead 0x2FFE#16, r.2)) =
    some ((0x2FFE#16, 0x0002#16, 0x0700#16), 0xBEEF#16, 0x8002#16, 0x3000#16, .tookTrap) := by decide
/-- V67. -/
theorem test_reserved_in_supervisor_mode : (cycleOf (State.cycle (start 0x0600#16 0x0204#16 [(6#3, 0x2FF0#16)]
    [(0x0600#16, 0xD000#16), (0x0101#16, 0x0610#16)]))).map
    (fun r => (seen 6#3 r.1, r.1.rawRead 0x2FEF#16, r.1.rawRead 0x2FEE#16, r.2)) =
    some ((0x2FEE#16, 0x0204#16, 0x0610#16), 0x0204#16, 0x0600#16, .tookTrap) := by decide
/-- V69. -/
theorem test_reserved_in_user_mode : (cycleOf (State.cycle (start 0x3001#16 0x8000#16 []
    [(0x3001#16, 0xDFFF#16), (0x0101#16, 0x0610#16)]))).map
    (fun r => (seen 6#3 r.1, r.1.rawRead 0x2FFF#16, r.1.rawRead 0x2FFE#16, r.2)) =
    some ((0x2FFE#16, 0x0000#16, 0x0610#16), 0x8000#16, 0x3001#16, .tookTrap) := by decide

/-- The start of V72. -/
def startV72 : State := start 0x3000#16 0x8002#16 [(6#3, 0xFDFF#16)]
  [(0x3000#16, 0x1021#16), (0xFE00#16, 0x4000#16), (0x0180#16, 0x0500#16)]

/-- V72, the event. -/
theorem test_keyEvent_requests : (startV72.keyEvent 0x42#8).rawRead 0xFE02#16 = 0x0042#16 ∧
    (startV72.keyEvent 0x42#8).rawRead 0xFE00#16 = 0xC000#16 ∧
    (startV72.keyEvent 0x42#8).irq = { asserted := true, pl := 4#3, vec := 0x80#8 } := by decide
/-- V72, the cycle. -/
theorem test_interrupt : (cycleOf (startV72.keyEvent 0x42#8).cycle).map
    (fun r => (seen 6#3 r.1, r.1.reg 0#3, r.1.rawRead 0x2FFF#16, r.1.rawRead 0x2FFE#16, r.1.irq.asserted, r.2)) =
    some ((0x2FFE#16, 0x0400#16, 0x0500#16), 0x0001#16, 0x8001#16, 0x3001#16, false, .tookInterrupt) := by decide
/-- V71: at priority 4 the byte is latched and nothing is requested. -/
theorem test_keyEvent_below_priority : ((start 0x0500#16 0x0400#16 [] [(0xFE00#16, 0x4000#16)]).keyEvent
      0x41#8).irq.asserted = false ∧
    ((start 0x0500#16 0x0400#16 [] [(0xFE00#16, 0x4000#16)]).keyEvent 0x41#8).rawRead 0xFE00#16 = 0xC000#16 := by
  decide

/-- The start of V74 and V75: a request at priority 4 is pending. -/
def startPending (word : Word) : State := (start 0x0501#16 0x0401#16 [(6#3, 0x2FFE#16)]
  [(0x0501#16, word), (0x2FFE#16, 0x3002#16), (0x2FFF#16, 0x8001#16), (0x0180#16, 0x0500#16)]).setIrq
  { asserted := true, pl := 4#3, vec := 0x80#8 }

/-- V74: RTI lowers the priority and the request is taken in the same cycle. -/
theorem test_rti_then_interrupt : (cycleOf (startPending 0x8000#16).cycle).map
    (fun r => (seen 6#3 r.1, r.1.rawRead 0x2FFF#16, r.1.rawRead 0x2FFE#16, r.1.savedUsp, r.2)) =
    some ((0x2FFE#16, 0x0400#16, 0x0500#16), 0x8001#16, 0x3002#16, 0x0000#16, .tookInterrupt) := by decide
/-- V75 (with the `pc` of V74): a request that is not above the priority stays pending. -/
theorem test_request_stays_pending : (cycleOf (startPending 0x1021#16).cycle).map
    (fun r => (seen 0#3 r.1, r.1.irq.asserted, r.2)) =
    some ((0x0001#16, 0x0401#16, 0x0502#16), true, .normal) := by decide

/-! ## PSR, memory, reset and the host -/

/-- Property 4 and V68: a loaded word of all ones reads back 0x8707. -/
theorem test_psr_load_all_ones : (PSR.ofWord 0xFFFF#16).word = 0x8707#16 ∧ PSR.reset.word = 0x8000#16 := by decide
/-- R28's examples. -/
theorem test_setcc : [0x0000#16, 0x0001#16, 0x7FFF#16, 0x8000#16, 0xFFFF#16].map (fun v => (PSR.reset.setcc v).word) =
    [0x8002#16, 0x8001#16, 0x8001#16, 0x8004#16, 0x8004#16] := by decide
/-- Writing the word that an unlisted cell reads as removes the entry. -/
theorem test_memory_canonical : ((({ cells := [] } : Memory).write 5#16 7#16).write 2#16 1#16).cells =
      [(2, 1#16), (5, 7#16)] ∧
    ((({ cells := [] } : Memory).write 5#16 7#16).write 5#16 0#16).cells = [] := by decide
theorem test_reset_memory_wf : State.reset.mem.wf := by decide
/-- R252, R262: with nothing placed the core is halted. -/
theorem test_reset_halted : (nextOf (step State.reset)).isNone = true := by decide
/-- A placed word is the next instruction that runs. -/
theorem test_withFetchWord : (nextOf (step (State.reset.withFetchWord 16 0x1025))).map (seen 0#3) =
    some (0x0005#16, 0x8001#16, 0x3001#16) := by decide
/-- V80. -/
theorem test_reload : [0x3000#16, 0x3001#16, 0x3002#16].map
      (startV72.reload { origin := 0x3000#16, words := [0x5020#16, 0x1025#16, 0xF025#16] }).rawRead =
      [0x5020#16, 0x1025#16, 0xF025#16] ∧
    seen 6#3 (startV72.reload { origin := 0x3000#16, words := [0x5020#16, 0x1025#16, 0xF025#16] }) =
      (0x0000#16, 0x8000#16, 0x3000#16) := by decide
/-- R114: word 0 of an image is its origin. -/
theorem test_image_of_words : ObjectImage.ofWords [0x3000#16, 0x5020#16] =
    some { origin := 0x3000#16, words := [0x5020#16] } ∧ ObjectImage.ofWords [] = none := by decide
/-- V81. -/
theorem test_restart : seen 0#3 (State.restart (start 0x0522#16 0x0002#16 [(0#3, 0x0005#16)] [])) =
    (0x0005#16, 0x0002#16, 0x3000#16) := by decide
/-- V82. -/
theorem test_resetMemory : [0x0025#16, 0x0523#16, 0xFE00#16, 0xFFFE#16].map
    ((startV72.setLaunch { startV72.launch with osImage := [(0x0025#16, 0x0520#16), (0x0523#16, 0xFFFE#16)] }
      ).resetMemory).rawRead = [0x0520#16, 0xFFFE#16, 0x0000#16, 0x0000#16] := by decide
/-- A breakpoint set is a rising list without repeats. -/
theorem test_breakpoints : (((State.reset.addBreakpoint 0x3002#16).addBreakpoint 0x3000#16).addBreakpoint
      0x3002#16).breakpoints = [0x3000#16, 0x3002#16] := by decide
/-- S1's first two instructions and a breakpoint on the third (R228). -/
theorem test_run_to_breakpoint : (endOf (((State.reset.reload { origin := 0x3000#16, words := [0x5020#16, 0x1025#16,
      0xF025#16] }).addBreakpoint 0x3002#16).run [[], [], []])).map (fun e => (e.stopped, seen 0#3 e.state)) =
    some (true, (0x0005#16, 0x8001#16, 0x3002#16)) := by decide
/-- `stepOver` of P2's `JSR NEG` goes on to the instruction after the call (R230). -/
theorem test_stepOver_call : (endOf ((start 0x3002#16 0x8001#16 [] [(0x3002#16, 0x4803#16),
      (0x3006#16, 0xC1C0#16)]).stepOver [[], [], []])).map (fun e => (e.stopped, e.state.pc)) =
    some (true, 0x3003#16) := by decide
/-- `stepOut` inside NEG, from its `NOT R0, R0`, goes on to the instruction after the call (R231). -/
theorem test_stepOut : (endOf ((start 0x3006#16 0x8001#16 [(7#3, 0x3003#16)] [(0x3006#16, 0x903F#16),
      (0x3007#16, 0xC1C0#16)]).stepOut [[], [], []])).map (fun e => (e.stopped, e.state.pc)) =
    some (true, 0x3003#16) := by decide
/-- Cancelling a run clears bit 15 of MCR and keeps its other bits (R228, R233). -/
theorem test_cancelRun : ((startV72.rawWrite 0xFFFE#16 0x8123#16).act .cancelRun).rawRead 0xFFFE#16 = 0x0123#16 := by
  decide

/-! ## Witnesses: states and operands that meet the hypotheses of the obligations, clause by clause -/

/-- A state whose next word is `word`, in user mode, at 0x3000. -/
def userAt (word : Word) : State := start 0x3000#16 0x8002#16 [(6#3, 0xFDFF#16)]
  [(0x3000#16, word), (0x0100#16, 0x0700#16), (0x0101#16, 0x0710#16), (0x0180#16, 0x0500#16)]

/-- A state whose next word is an RTI in supervisor mode, to user mode at priority 0. -/
def returning : State := start 0x0501#16 0x0401#16 [(6#3, 0x2FFE#16)]
  [(0x0501#16, 0x8000#16), (0x2FFE#16, 0x3002#16), (0x2FFF#16, 0x8001#16)]

/-- P2's `JSR NEG` with a RET as the first instruction of the subroutine. -/
def calling : State := start 0x3002#16 0x8001#16 [] [(0x3002#16, 0x4803#16), (0x3006#16, 0xC1C0#16)]

theorem witness_OpcodeAndFormBitSelectTheInstruction :
    [0x0E01, 0x1025, 0x2202, 0x3203, 0x4803, 0x5020, 0x6180, 0x7080, 0x8000, 0x9FFF, 0xA001, 0xB001, 0xC1C0, 0xD000,
      0xE001, 0xFFFF].map (fun w => (BitVec.ofNat 16 w).extractLsb' 12 4) =
    [0b0000#4, 0b0001#4, 0b0010#4, 0b0011#4, 0b0100#4, 0b0101#4, 0b0110#4, 0b0111#4, 0b1000#4, 0b1001#4, 0b1010#4,
      0b1011#4, 0b1100#4, 0b1101#4, 0b1110#4, 0b1111#4] := by decide

theorem witness_IgnoredBitsDoNotChangeTheInstruction : ∃ row ∈ opcodeRows, row.covers 0x14C4#16 ∧
    0x14C4#16 &&& ~~~row.ignored = 0x14DC#16 &&& ~~~row.ignored :=
  ⟨⟨"ADD", 0xF020#16, 0x1000#16, 0x0018#16⟩, by decide, rfl, by decide⟩

theorem witness_DecodeOfEncodeIsTheInstruction : (Instr.ldr 3#3 4#3 0b111111#6).wellFormed = true := rfl

theorem witness_EncodeOfDecodeKeepsEveryDecodedBit : ∃ row ∈ opcodeRows, row.covers 0xDFFF#16 :=
  ⟨⟨"RESERVED", 0xF000#16, 0xD000#16, 0x0FFF#16⟩, by decide, rfl⟩

/-- Both clauses: the neighbours of KBDR, and KBDR itself with a cell that stays. -/
theorem witness_MemReadClearsKeyboardReadyAtKbdrOnly :
    (0xFE01#16 : Word) ≠ 0xFE02#16 ∧ (0xFE03#16 : Word) ≠ 0xFE02#16 ∧ (0xFE02#16 : Word) ≠ 0xFE00#16 ∧
    ((startV72.keyEvent 0x42#8).memRead 0xFE02#16).2.rawRead 0xFE00#16 = 0x4000#16 := by decide

/-- Both clauses: the neighbours of DDR, and DDR itself with a cell that stays. -/
theorem witness_MemWriteStoresAndShowsAtDdrOnly :
    (0xFE05#16 : Word) ≠ 0xFE06#16 ∧ (0xFE07#16 : Word) ≠ 0xFE06#16 ∧
    ((0xFE05#16 : Word) ≠ 0xFE06#16 ∧ (0xFE05#16 : Word) ≠ 0xFE04#16) ∧
    (startV72.memWrite 0xFE06#16 0x1241#16).display = [0x41#8] := by decide

theorem witness_CanonicalMemoriesThatReadAlikeAreEqual : ∃ m n : Memory, m.wf ∧ n.wf ∧ m.cells ≠ [] ∧
    ∀ a, m.read a = n.read a :=
  ⟨{ cells := [(0x3000, 0x5020#16)] }, { cells := [(0x3000, 0x5020#16)] }, by decide, by decide, by decide,
    fun _ => rfl⟩

/-- The first clause at an image that wraps, for its middle word; the second for the cell below the origin. -/
theorem witness_ImageLoadPlacesEveryWord : ∃ img : ObjectImage,
    (∃ i, i < img.words.length ∧ ∀ j, i < j → j < img.words.length →
      img.origin + BitVec.ofNat 16 j ≠ img.origin + BitVec.ofNat 16 i) ∧
    ∀ i, i < img.words.length → (0xFFFE#16 : Word) ≠ img.origin + BitVec.ofNat 16 i := by
  refine ⟨{ origin := 0xFFFF#16, words := [0x5020#16, 0x1025#16, 0xF025#16] }, ⟨1, by decide, ?_⟩, ?_⟩
  · intro j h1 h2
    obtain rfl : j = 2 := by simp at h2; omega
    decide
  · intro i h
    have : i = 0 ∨ i = 1 ∨ i = 2 := by simp at h; omega
    rcases this with rfl | rfl | rfl <;> decide

/-- One of the two clauses has its hypothesis whatever the free value of log entry 5 is. -/
theorem witness_LeaLoadsTheAddressItself : Config.leaSetsCC = true ∨ Config.leaSetsCC = false := by
  cases Config.leaSetsCC <;> simp

theorem witness_RtiInSupervisorModeReturns : returning.psr.mode = .supervisor := by decide

theorem witness_RtiInUserModeTakesThePrivilegeViolation : (userAt 0x8ABC#16).clockEnabled = true ∧
    (userAt 0x8ABC#16).psr.mode = .user ∧ opcodeOf (userAt 0x8ABC#16).wordAtPc = 0b1000#4 := by decide

theorem witness_OnlyOpcode1101IsIllegal : (userAt 0xDFFF#16).clockEnabled = true ∧
    (userAt 0xDFFF#16).wordAtPc.extractLsb' 12 4 = 0b1101#4 := by decide

theorem witness_VectorCellsGiveTheNewPc : mcr ∈ [kbsr, kbdr, dsr, ddr, mcr] := by decide

theorem witness_StepRunsTheDecodedInstruction : (userAt 0x1025#16).clockEnabled = true ∧
    decode ((userAt 0x1025#16).rawRead (userAt 0x1025#16).pc) = .addImm 0#3 0#3 5#5 ∧
    ∃ u, exec (.addImm 0#3 0#3 5#5) (userAt 0x1025#16) = .next u := ⟨by decide, by decide, _, rfl⟩

theorem witness_CoreStepsExactlyWhileTheClockIsEnabled :
    ((userAt 0x1025#16).rawRead 0xFFFE#16).getLsbD 15 = true ∧
    (State.reset.rawRead 0xFFFE#16).getLsbD 15 = false := by decide

/-- A cycle that takes an exception and one that takes none. -/
theorem witness_ExceptionsDependOnWordAndModeOnly :
    (cycleOf (userAt 0x8000#16).cycle).map Prod.snd = some .tookTrap ∧
    (cycleOf (userAt 0x1025#16).cycle).map Prod.snd = some .normal := by decide

theorem witness_ExceptionCycleEndsWithTheEntry : (userAt 0xD000#16).clockEnabled = true ∧
    exceptionCheck ((userAt 0xD000#16).rawRead (userAt 0xD000#16).pc) (userAt 0xD000#16).psr.mode =
      some illegalOpcodeVector := by decide

/-- The word at `pc` in V74 and V75, the state its instruction leaves, and the two sides of the test: priority 0
and priority 4 under a request of priority 4. -/
theorem witness_ArbiterTakesTheRequestAboveThePriority :
    ((startPending 0x8000#16).clockEnabled = true ∧ (startPending 0x1021#16).clockEnabled = true) ∧
    (exceptionCheck (startPending 0x8000#16).wordAtPc (startPending 0x8000#16).psr.mode = none ∧
      exceptionCheck (startPending 0x1021#16).wordAtPc (startPending 0x1021#16).psr.mode = none) ∧
    (nextOf (exec (decode (startPending 0x8000#16).wordAtPc) (startPending 0x8000#16))).map
      (fun u => (u.irq.asserted, decide (u.psr.pl < u.irq.pl))) = some (true, true) ∧
    (nextOf (exec (decode (startPending 0x1021#16).wordAtPc) (startPending 0x1021#16))).map
      (fun u => (u.irq.asserted, decide (u.psr.pl < u.irq.pl))) = some (true, false) := by decide

/-- The same state meets the hypotheses of the entry: V74. -/
theorem witness_InterruptEntryLoadsTheNewPsr : (startPending 0x8000#16).clockEnabled = true ∧
    exceptionCheck ((startPending 0x8000#16).rawRead (startPending 0x8000#16).pc)
      (startPending 0x8000#16).psr.mode = none ∧
    (nextOf (exec (decode ((startPending 0x8000#16).rawRead (startPending 0x8000#16).pc))
      (startPending 0x8000#16))).map (fun u => (u.irq.asserted, decide (u.psr.pl < u.irq.pl))) =
      some (true, true) := by decide

theorem witness_RtiReversesEveryEntry :
    (userAt 0x8000#16).exceptionEntry 0#8 ∈ [(userAt 0x8000#16).exceptionEntry 0#8, (userAt 0x8000#16).interruptEntry] :=
  List.mem_cons_self

/-- The invariant in a state that steps, with a request pending. -/
theorem witness_EveryStepKeepsTheInvariant : Inv ((userAt 0x1021#16).setIrq
      { asserted := true, pl := 4#3, vec := 0x80#8 }) ∧
    (nextOf (step ((userAt 0x1021#16).setIrq { asserted := true, pl := 4#3, vec := 0x80#8 }))).isSome = true :=
  ⟨⟨by decide, by decide, by decide⟩, by decide⟩

theorem witness_EveryActionKeepsTheInvariant : Inv (userAt 0x1021#16) := ⟨by decide, by decide, by decide⟩

theorem witness_OnlyRtiEntersUserMode : returning.psr.mode = .supervisor ∧
    (nextOf (step returning)).map (fun t => t.psr.mode) = some .user := by decide

/-- The priority changes by an RTI, and by an interrupt after an ADD. -/
theorem witness_PriorityChangesOnlyByRtiOrInterrupt :
    (nextOf (step returning)).map (fun t => decide (t.psr.pl ≠ returning.psr.pl)) = some true ∧
    (nextOf (step (startV72.keyEvent 0x42#8))).map (fun t => decide (t.psr.pl ≠ startV72.psr.pl)) = some true := by
  decide

/-- The three clauses: a step begun in user mode, one that changes `saved_ssp`, one that changes `saved_usp`. -/
theorem witness_ShadowSlotsChangeOnlyAtModeSwitches :
    (userAt 0x1021#16).psr.mode = .user ∧ (nextOf (step (userAt 0x1021#16))).isSome = true ∧
    (nextOf (step (returning.setSavedSsp 0x1111#16))).map (fun t => decide (t.savedSsp ≠ 0x1111#16)) = some true ∧
    (nextOf (step (userAt 0xD000#16))).map (fun t => decide (t.savedUsp ≠ (userAt 0xD000#16).savedUsp)) =
      some true := by decide

/-- Both ends: a step that keeps the latch and one that clears it. -/
theorem witness_LatchIsOnlyClearedByACycle :
    (nextOf (step (startPending 0x1021#16))).map (fun t => t.irq.asserted) = some true ∧
    (nextOf (step (startPending 0x8000#16))).map (fun t => t.irq.asserted) = some false := by decide

theorem witness_HostSideDoesNotInfluenceTheCore : ∃ t, step (userAt 0x1025#16) = .next t := ⟨_, rfl⟩

/-- A step that shows a byte. -/
theorem witness_DisplayIsWrittenAndNeverReadBack :
    (nextOf (step ((userAt 0xB001#16).rawWrite 0x3002#16 0xFE06#16))).map (fun t => t.display.length) =
      some 1 := by decide

/-- The clauses of the request: enabled at priority 0, not enabled, and enabled at priority 4. -/
theorem witness_KeyEventLatchesAndMayRequest :
    ((startV72.rawRead 0xFE00#16).getLsbD 14 = true ∧ startV72.psr.pl.toNat < 4) ∧
    ¬ ((State.reset.rawRead 0xFE00#16).getLsbD 14 = true ∧ State.reset.psr.pl.toNat < 4) ∧
    ¬ (((startV72.setPsr (PSR.ofWord 0x0400#16)).rawRead 0xFE00#16).getLsbD 14 = true ∧
      (startV72.setPsr (PSR.ofWord 0x0400#16)).psr.pl.toNat < 4) ∧
    (0xFE01#16 : Word) ≠ 0xFE02#16 ∧ (0xFE01#16 : Word) ≠ 0xFE00#16 := by decide

/-- An image of one word, and an address it does not cover. -/
theorem witness_ReloadEstablishesTheLaunchPremises : ∃ img : ObjectImage, img.words.length ≤ 2 ^ 16 ∧
    0 < img.words.length ∧ ∀ i, i < img.words.length → (0x3001#16 : Word) ≠ img.origin + BitVec.ofNat 16 i := by
  refine ⟨{ origin := 0x3000#16, words := [0x5020#16] }, by simp, by simp, ?_⟩
  intro i h
  obtain rfl : i = 0 := by simp at h; omega
  decide

theorem witness_TwoReloadsOfOneImageAgree : ∃ (s s' : State) (img : ObjectImage), s ≠ s' ∧
    0 < img.words.length ∧ ∀ a, s.rawRead a = s'.rawRead a :=
  ⟨State.reset, State.reset.setPc 0#16, { origin := 0x3000#16, words := [0x5020#16] }, by decide, by decide,
    fun _ => rfl⟩

theorem witness_ResetMemoryZeroesAllButTheOsImage : ∃ s : State, (s.launch.osImage.map Prod.fst).Nodup ∧
    (0x0025#16, 0x0520#16) ∈ s.launch.osImage ∧ (0xFFFE#16 : Word) ∉ s.launch.osImage.map Prod.fst :=
  ⟨State.reset.setLaunch { State.reset.launch with osImage := [(0x0025#16, 0x0520#16), (0x0520#16, 0x5260#16)] },
    by decide, by decide, by decide⟩

/-- Both clauses: a map of two cells, one of them listed, and a cell outside it. -/
theorem witness_RandomiseMemoryReachesEveryContent : ∃ s : State, (s.launch.osImage.map Prod.fst).Nodup ∧
    (0x0520#16, 0x5260#16) ∈ s.launch.osImage ∧ (0xFE00#16 : Word) ∉ s.launch.osImage.map Prod.fst :=
  ⟨State.reset.setLaunch { State.reset.launch with osImage := [(0x0025#16, 0x0520#16), (0x0520#16, 0x5260#16)] },
    by decide, by decide, by decide⟩

theorem witness_RestartAndHostWritesChangeOneThing : (0xFFFF#16 : Word) ≠ 0xFFFE#16 ∧ (5#3 : RegNum) ∉ [6#3] := by
  decide

/-- A run that stops, and a first cycle that leaves the clock on and no breakpoint, and one that leaves a
breakpoint. -/
theorem witness_RunStopsOnlyHaltedOrAtABreakpoint :
    (endOf (((userAt 0x1025#16).addBreakpoint 0x3001#16).run [[]])).map RunEnd.stopped = some true ∧
    (cycleOf (userAt 0x1025#16).setClockEnable.cycle).map
      (fun r => (r.1.clockEnabled, decide (r.1.pc ∉ r.1.breakpoints))) = some (true, true) ∧
    (cycleOf ((userAt 0x1025#16).addBreakpoint 0x3001#16).setClockEnable.cycle).map
      (fun r => decide (r.1.pc ∈ r.1.breakpoints)) = some true := by decide

/-- A word that is no call and no return, a call and the RET it goes to, and an RTI, whose cycles end normally and
leave the clock on and no breakpoint. -/
theorem witness_StepOverAndStepOutStopAtTheirDepth :
    ((cycleOf (userAt 0x1025#16).setClockEnable.cycle).map (fun r => (decide (LoopGoesOn r.1), r.2)) =
        some (true, .normal) ∧
      ¬ CallWord (0x1025#16 : Word) ∧ ¬ ReturnWord (0x1025#16 : Word)) ∧
    ((cycleOf calling.setClockEnable.cycle).map (fun r => (decide (LoopGoesOn r.1), r.2, r.1.wordAtPc,
        (cycleOf r.1.cycle).map Prod.snd)) = some (true, .normal, 0xC1C0#16, some .normal) ∧
      CallWord (0x4803#16 : Word) ∧ ReturnWord (0xC1C0#16 : Word)) ∧
    ((cycleOf returning.setClockEnable.cycle).map Prod.snd = some .normal ∧ ReturnWord (0x8000#16 : Word)) := by
  decide

/-- The depth clauses: a plain word and a return (the loop stops at depth 0 and goes on at depth 1), a word that took
an exception, an interrupt after a plain word; a clock that is off and a breakpoint. -/
theorem witness_StepOverAndStepOut_depth :
    DepthGoes 0x1025#16 .normal 1 1 ∧ DepthGoes 0xC1C0#16 .normal 1 0 ∧ DepthGoes 0xC1C0#16 .normal 2 1 ∧
    DepthGoes 0x8000#16 .tookTrap 1 2 ∧ DepthGoes 0x1021#16 .tookInterrupt 1 2 ∧
    DepthGoes 0x8000#16 .tookInterrupt 1 1 ∧
    State.reset.clockEnabled = false ∧ ¬ LoopGoesOn ((userAt 0x1025#16).addBreakpoint 0x3000#16) := by
  refine ⟨.inr ⟨0, .inl ⟨rfl, rfl⟩, .inr (.inr ⟨by decide, by decide, rfl⟩)⟩,
    .inr ⟨0, .inl ⟨rfl, rfl⟩, .inr (.inl ⟨by decide, rfl⟩)⟩, .inr ⟨0, .inl ⟨rfl, rfl⟩, .inr (.inl ⟨by decide, rfl⟩)⟩,
    .inl ⟨rfl, rfl⟩, .inr ⟨1, .inr ⟨rfl, rfl⟩, .inr (.inr ⟨by decide, by decide, rfl⟩)⟩,
    .inr ⟨1, .inr ⟨rfl, rfl⟩, .inr (.inl ⟨by decide, rfl⟩)⟩, by decide, by decide⟩

end Sys2Proof.Tests
end

section
/-! PROOFS. What a key event and the breakpoint insertion do to the fields the invariant reads, and the invariant
under every action between two cycles (00_scope.md R4). -/

namespace Sys2Proof.Machine

/-! ## The key event (20_memory.md R62) -/

theorem State.latchKey_wf {s : State} (h : s.mem.wf) (b : Byte) : (s.latchKey b).mem.wf :=
  Memory.write_wf (Memory.write_wf h _ _) _ _

/-- A key event latches the byte and then rewrites the latch: the keyboard's request when it may request, and the
latch as it was otherwise. -/
theorem State.keyEvent_eq (s : State) (b : Byte) :
    s.keyEvent b = (s.latchKey b).setIrq (if (s.latchKey b).keyRequests then
      { asserted := true, pl := keyboardPriority, vec := keyboardVector } else s.irq) := by
  simp only [State.keyEvent]
  split <;> rfl

/-! ## The breakpoint list (10_state.md R36) -/

theorem mem_insertAddress {a b : Word} {l : List Word} : b ∈ insertAddress a l ↔ b = a ∨ b ∈ l := by
  induction l with
  | nil => simp [insertAddress]
  | cons c rest ih =>
    simp only [insertAddress]
    split
    next => rw [List.mem_cons]
    next =>
      split
      next hEq => simp [hEq]
      next => rw [List.mem_cons, ih, List.mem_cons, or_left_comm]

theorem insertAddress_rising {a : Word} {l : List Word} (hl : l.Pairwise (fun b c => b < c)) :
    (insertAddress a l).Pairwise (fun b c => b < c) := by
  induction l with
  | nil => exact List.pairwise_singleton _ _
  | cons c rest ih =>
    obtain ⟨hHead, hTail⟩ := List.pairwise_cons.mp hl
    simp only [insertAddress]
    split
    next hLt =>
      have hBelow : ∀ b ∈ c :: rest, a < b :=
        List.forall_mem_cons.mpr ⟨hLt, fun b hb => BitVec.lt_trans hLt (hHead b hb)⟩
      exact List.pairwise_cons.mpr ⟨hBelow, hl⟩
    next hNotLt =>
      split
      next => exact hl
      next hNe =>
        have hAbove : c < a := by bv_omega
        refine List.pairwise_cons.mpr ⟨fun b hb => ?_, ih hTail⟩
        rcases mem_insertAddress.mp hb with rfl | hb
        · exact hAbove
        · exact hHead b hb

end Sys2Proof.Machine

namespace Sys2Proof.Safety

open Sys2Proof.Machine

variable {s t : State}

/-! ## The parts of the invariant -/

theorem Inv.mem_wf (h : Inv s) : s.mem.wf := h.1

theorem Inv.breakpoints_rising (h : Inv s) : s.breakpoints.Pairwise (fun a b => a < b) := h.2.1

theorem Inv.pending_is_keyboards (h : Inv s) : s.irq.asserted = true → s.irq.pl = 4#3 ∧ s.irq.vec = 0x80#8 := h.2.2

/-! ## The invariant under a change of one field -/

/-- The invariant reads the memory, the breakpoints and the latch alone. -/
theorem Inv.congr (h : Inv s) (hm : t.mem = s.mem) (hb : t.breakpoints = s.breakpoints) (hi : t.irq = s.irq) :
    Inv t := by
  rwa [Inv, hm, hb, hi]

theorem Inv.setMem (h : Inv s) {m : Memory} (hm : m.wf) : Inv (s.setMem m) :=
  ⟨hm, h.breakpoints_rising, h.pending_is_keyboards⟩

theorem Inv.setBreakpoints (h : Inv s) {bs : List Word} (hb : bs.Pairwise (fun a b => a < b)) :
    Inv (s.setBreakpoints bs) :=
  ⟨h.mem_wf, hb, h.pending_is_keyboards⟩

theorem Inv.rawWrite (h : Inv s) (a v : Word) : Inv (s.rawWrite a v) :=
  h.setMem (Memory.write_wf h.mem_wf a v)

/-! ## The invariant under each operation that touches a field it reads -/

/-- A request that a key event leaves pending was pending before, or is the one it has just made (R62, R211). -/
theorem Inv.keyEvent (h : Inv s) (b : Byte) : Inv (s.keyEvent b) := by
  rw [State.keyEvent_eq]
  refine ⟨State.latchKey_wf h.mem_wf b, h.breakpoints_rising, ?_⟩
  rw [State.setIrq_irq]
  split
  next => exact fun _ => ⟨rfl, rfl⟩
  next => exact h.pending_is_keyboards

theorem Inv.addBreakpoint (h : Inv s) (a : Word) : Inv (s.addBreakpoint a) :=
  h.setBreakpoints (insertAddress_rising h.breakpoints_rising)

theorem Inv.removeBreakpoint (h : Inv s) (a : Word) : Inv (s.removeBreakpoint a) :=
  h.setBreakpoints (h.breakpoints_rising.filter _)

/-- Reload writes the image over the memory, keeps the breakpoints and clears the request (R250, D15). -/
theorem Inv.reload (h : Inv s) (img : ObjectImage) : Inv (s.reload img) :=
  ⟨Memory.writeFrom_wf h.mem_wf _ _, h.breakpoints_rising, fun hPending => Bool.noConfusion hPending⟩

theorem Inv.resetMemory (h : Inv s) : Inv s.resetMemory :=
  h.setMem (Memory.writeAll_wf Memory.empty_wf _)

theorem Inv.randomiseMemory (h : Inv s) (draw : List (Word × Word)) : Inv (s.randomiseMemory draw) :=
  h.setMem (Memory.writeAll_wf (Memory.writeAll_wf Memory.empty_wf _) _)

/-- Settles O43: an action either writes no field the invariant reads, or is one of the operations above. -/
theorem everyActionKeepsTheInvariant : Obligations.EveryActionKeepsTheInvariant := by
  intro s a h
  cases a with
  | key b => exact h.keyEvent b
  | setMem a v => exact h.rawWrite a v
  | setReg r v => exact h.congr rfl rfl rfl
  | setPc v => exact h.congr rfl rfl rfl
  | setPsr w => exact h.congr rfl rfl rfl
  | addBreakpoint a => exact h.addBreakpoint a
  | removeBreakpoint a => exact h.removeBreakpoint a
  | clearBreakpoints => exact h.setBreakpoints List.Pairwise.nil
  | cancelRun => exact h.rawWrite _ _
  | reload img => exact h.reload img
  | restart => exact h.congr rfl rfl rfl
  | resetMemory => exact h.resetMemory
  | randomiseMemory draw => exact h.randomiseMemory draw

end Sys2Proof.Safety
end

section
/-! PROOFS. The state of the machine (10_state.md): the condition codes and the PSR word, the reset state, the
breakpoint set, and what a step does to the invariant, the priority, the shadow slots and the host's side. -/

namespace Sys2Proof.Machine

open Sys2Proof.Safety

variable {s t u : State}

/-! ## The PSR word, field by field (R24, R25) -/

theorem Mode.bit_eq_ofBool (m : Mode) : m.bit = BitVec.ofBool (decide (m = .user)) := by
  cases m <;> rfl

/-- The five fields of a PSR stand at their bits of its word. -/
theorem PSR.word_fields (q : PSR) :
    (q.word.getLsbD 15 = true ↔ q.mode = .user) ∧ q.word.extractLsb' 8 3 = q.pl ∧
    q.word.getLsbD 2 = q.n ∧ q.word.getLsbD 1 = q.z ∧ q.word.getLsbD 0 = q.p := by
  have hpl : q.word.extractLsb' 8 3 = q.pl := by
    refine BitVec.eq_of_getLsbD_eq fun i hi => ?_
    interval_cases i <;> simp [PSR.word, Mode.bit_eq_ofBool]
  refine ⟨?_, hpl, ?_, ?_, ?_⟩
  all_goals simp [PSR.word, Mode.bit_eq_ofBool]

/-- Loading the word of a PSR gives the PSR. -/
theorem PSR.ofWord_word (q : PSR) : PSR.ofWord q.word = q := by
  obtain ⟨hMode, hPl, hN, hZ, hP⟩ := q.word_fields
  have hOfMode : (if q.word.getLsbD 15 then Mode.user else Mode.supervisor) = q.mode := by
    simp only [hMode]
    cases q.mode <;> rfl
  rw [PSR.ofWord, hOfMode, hPl, hN, hZ, hP]

/-- A loaded word reads back with the bits outside the five fields zero (D18). -/
theorem PSR.word_ofWord (w : Word) : (PSR.ofWord w).word = w &&& 0x8707#16 := by
  refine word_ext fun i hi => ?_
  simp only [PSR.word, PSR.ofWord, Mode.bit_eq_ofBool]
  interval_cases i <;> simp [-BitVec.getLsbD_eq_getElem]

/-- Settles O9: each field at its bits, and both round trips. -/
theorem psrWordAndLoadAgree : Obligations.PsrWordAndLoadAgree :=
  ⟨fun q => ⟨q.ofWord_word, q.word_fields⟩, PSR.word_ofWord⟩

/-! ## The condition codes (R28) -/

/-- One flag alone is set after `setcc`, by whether the word is zero and by its bit 15. -/
theorem PSR.setcc_oneHot (q : PSR) (v : Word) :
    ((q.setcc v).n, (q.setcc v).z, (q.setcc v).p) = (true, false, false) ∨
    ((q.setcc v).n, (q.setcc v).z, (q.setcc v).p) = (false, true, false) ∨
    ((q.setcc v).n, (q.setcc v).z, (q.setcc v).p) = (false, false, true) := by
  by_cases hZero : v = 0#16
  · subst hZero; exact .inr (.inl rfl)
  · cases hNeg : v.getLsbD 15
    · exact .inr (.inr (by simp only [PSR.setcc, hNeg, beq_false_of_ne hZero, bne, Bool.not_false, Bool.and_self]))
    · exact .inl (by simp only [PSR.setcc, hNeg, beq_false_of_ne hZero, Bool.not_true, Bool.false_and])

/-- Settles O8: the flags by bit 15 and by zero, the signed reading of the model's law, and one flag alone. -/
theorem setccSetsExactlyTheSignedFlag : Obligations.SetccSetsExactlyTheSignedFlag := by
  intro s v
  refine ⟨Iff.rfl, beq_iff_eq, ?_, s.setcc_flagsOf v, s.psr.setcc_oneHot v, rfl, rfl⟩
  simp only [State.setcc_psr, PSR.setcc, Bool.and_eq_true, Bool.not_eq_true', bne_iff_ne]

/-! ## The breakpoint set (R36, R234) -/

/-- Settles O57: the insertion into the rising list, the filter that removes, and the empty list. -/
theorem breakpointOperationsAreSetOperations : Obligations.BreakpointOperationsAreSetOperations := by
  intro s a b
  refine ⟨mem_insertAddress, ?_, List.not_mem_nil⟩
  show b ∈ s.breakpoints.filter (fun c => c != a) ↔ _
  rw [List.mem_filter, bne_iff_ne, and_comm]

/-! ## The reset state (R39, R252) -/

theorem State.reset_reg (r : RegNum) : State.reset.reg r = 0x0000#16 := by
  simp [State.reg, State.reset, Config.gprReset]

/-- Settles O51: the fields as `State.reset` writes them, and the empty memory, which reads as zero. -/
theorem resetStateHoldsTheReloadValues : Obligations.ResetStateHoldsTheReloadValues :=
  ⟨rfl, ⟨rfl, rfl⟩, State.reset_reg, rfl, rfl, rfl, Memory.read_empty, rfl, rfl, Bool.false_ne_true⟩

/-- Settles O41: the empty memory is canonical, the empty set rises, and no request is pending. -/
theorem resetMeetsTheInvariant : Obligations.ResetMeetsTheInvariant :=
  ⟨Memory.empty_wf, List.Pairwise.nil, fun hPending => Bool.noConfusion hPending⟩

end Sys2Proof.Machine

namespace Sys2Proof.Safety

open Sys2Proof.Machine

variable {s t u : State}

/-! ## The invariant under a step (R33, R36, R209) -/

theorem Inv.exceptionEntry (h : Inv s) (v : Vector8) : Inv (s.exceptionEntry v) := by
  obtain ⟨hIrq, hBreak, -⟩ := s.exceptionEntry_keepsHostSide v
  exact ⟨State.exceptionEntry_wf h.mem_wf v, hBreak ▸ h.breakpoints_rising, hIrq ▸ h.pending_is_keyboards⟩

/-- Taking the request clears it, so none is pending afterwards (R213). -/
theorem Inv.interruptEntry (h : Inv s) : Inv s.interruptEntry := by
  obtain ⟨⟨-, -, -, -, -, -, -, hBreak, -⟩, -, hIrq⟩ := s.interruptEntry_spec
  refine ⟨State.interruptEntry_wf h.mem_wf, hBreak ▸ h.breakpoints_rising, fun hPending => ?_⟩
  rw [hIrq] at hPending
  cases hPending

theorem Inv.exec (h : Inv s) {i : Instr} (hu : Machine.exec i s = .next u) : Inv u := by
  obtain ⟨hIrq, hBreak, -⟩ := exec_keepsHostSide hu
  exact ⟨exec_wf h.mem_wf hu, hBreak ▸ h.breakpoints_rising, hIrq ▸ h.pending_is_keyboards⟩

theorem Inv.interruptCheck (h : Inv s) : Inv s.interruptCheck.1 := by
  rcases s.interruptCheck_cases with ⟨-, -, hTaken⟩ | ⟨-, hKept⟩
  · rw [hTaken]; exact h.interruptEntry
  · rw [hKept]; exact h

/-- Settles O42: a cycle is an exception entry, or an instruction and then the interrupt check, and each of the
three keeps the invariant. -/
theorem everyStepKeepsTheInvariant : Obligations.EveryStepKeepsTheInvariant := by
  intro s t h hStep
  rcases step_cases hStep with ⟨-, ⟨v, -, rfl⟩ | ⟨-, u, hu, rfl⟩⟩
  · exact h.exceptionEntry v
  · exact (h.exec hu).interruptCheck

end Sys2Proof.Safety

namespace Sys2Proof.Machine

open Sys2Proof.Safety

variable {s t u : State}

/-! ## The priority and the shadow slots under a step (R27, R31) -/

/-- An RTI that step 1 lets through runs in supervisor mode (R201). -/
theorem mode_of_rti (hCheck : exceptionCheck s.wordAtPc s.psr.mode = none) (hRti : decode s.wordAtPc = .rti) :
    s.psr.mode = .supervisor := by
  have hOp := (decode_eq_rti_iff _).mp hRti
  cases hMode : s.psr.mode
  · simp [exceptionCheck, hOp, hMode] at hCheck
  · rfl

theorem entryUsp_of_supervisor (h : s.psr.mode = .supervisor) : entryUsp s = s.savedUsp := by
  rw [entryUsp, h]

theorem entryUsp_of_user (h : s.psr.mode = .user) : entryUsp s = s.reg 6#3 := by
  rw [entryUsp, h]

@[simp] theorem State.interruptCheck_savedSsp (s : State) : s.interruptCheck.1.savedSsp = s.savedSsp := by
  rcases s.interruptCheck_cases with ⟨-, -, hTaken⟩ | ⟨-, hKept⟩
  · obtain ⟨⟨-, -, -, hSsp, -⟩, -⟩ := s.interruptEntry_spec
    rw [hTaken]; exact hSsp
  · rw [hKept]

/-- Settles O45: an exception entry and every instruction but RTI keep the priority, so that what is left is the
interrupt check, which reads the latch that the instruction has kept. -/
theorem priorityChangesOnlyByRtiOrInterrupt : Obligations.PriorityChangesOnlyByRtiOrInterrupt := by
  intro s t hStep hPl
  rcases step_cases hStep with ⟨-, ⟨v, -, rfl⟩ | ⟨hCheck, u, hu, rfl⟩⟩
  · exact absurd (s.exceptionEntry_privilege v).1 hPl
  · by_cases hRti : decode s.wordAtPc = .rti
    · exact .inl ⟨hRti, mode_of_rti hCheck hRti⟩
    · have hKept : u.psr.pl = s.psr.pl := (exec_privilege hu hRti).1
      obtain ⟨hIrq, -, -⟩ := exec_keepsHostSide hu
      rcases u.interruptCheck_cases with ⟨hPending, hAbove, hTaken⟩ | ⟨-, hNone⟩
      · obtain ⟨-, hPsr, hLatch⟩ := u.interruptEntry_spec
        rw [hIrq] at hPending hAbove hPsr hLatch
        rw [hKept] at hAbove
        rw [hTaken]
        exact .inr ⟨hPending, hAbove, congrArg PSR.pl hPsr, hLatch⟩
      · rw [hNone] at hPl
        exact absurd hKept hPl

/-- A step that changes `saved_ssp` ran an RTI in supervisor mode. -/
theorem rti_of_savedSsp_ne (hStep : step s = .next t) (hSsp : t.savedSsp ≠ s.savedSsp) :
    decode s.wordAtPc = .rti ∧ s.psr.mode = .supervisor := by
  rcases step_cases hStep with ⟨-, ⟨v, -, rfl⟩ | ⟨hCheck, u, hu, rfl⟩⟩
  · exact absurd (s.exceptionEntry_privilege v).2.1 hSsp
  · by_cases hRti : decode s.wordAtPc = .rti
    · exact ⟨hRti, mode_of_rti hCheck hRti⟩
    · rw [State.interruptCheck_savedSsp] at hSsp
      exact absurd (exec_privilege hu hRti).2.1 hSsp

/-- `saved_usp` is as it was, or user mode has been left for supervisor mode. -/
def KeepsUspOrLeavesUser (s t : State) : Prop :=
  t.savedUsp = s.savedUsp ∨ (s.psr.mode = .user ∧ t.psr.mode = .supervisor)

theorem KeepsOrRaisesPrivilege.uspOrLeavesUser (h : KeepsOrRaisesPrivilege s u) : KeepsUspOrLeavesUser s u := by
  obtain ⟨-, -, ⟨-, hUsp⟩ | ⟨hMode, hUsp⟩⟩ := h
  · exact .inl hUsp
  · cases hs : s.psr.mode
    · exact .inr ⟨hs, hMode⟩
    · exact .inl (hUsp.trans (entryUsp_of_supervisor hs))

/-- Taking an interrupt ends in supervisor mode, with `saved_usp` as the entry leaves it (R208, R213). -/
theorem State.interruptEntry_mode_savedUsp (s : State) :
    s.interruptEntry.psr.mode = .supervisor ∧ s.interruptEntry.savedUsp = entryUsp s := by
  obtain ⟨⟨-, -, hUsp, -⟩, hPsr, -⟩ := s.interruptEntry_spec
  exact ⟨congrArg PSR.mode hPsr, hUsp⟩

/-- After an RTI in supervisor mode an entry would leave `saved_usp` as the RTI found it: where the RTI went to user
mode, `x[6]` is the `saved_usp` it restored (R182). -/
theorem entryUsp_of_returnsFromEntry (h : ReturnsFromEntry s u) : entryUsp u = s.savedUsp := by
  obtain ⟨-, hPsr, hReg, -, hUsp, -⟩ := h
  cases hu : u.psr.mode
  · rw [← hPsr, if_pos hu] at hReg
    exact (entryUsp_of_user hu).trans hReg
  · exact (entryUsp_of_supervisor hu).trans hUsp

/-- What an entry from `u` would leave in `saved_usp` is what `s` holds there, if an instruction other than RTI led
from `s` in supervisor mode to `u`. -/
theorem KeepsOrRaisesPrivilege.entryUsp_eq (h : KeepsOrRaisesPrivilege s u) (hs : s.psr.mode = .supervisor) :
    entryUsp u = s.savedUsp := by
  obtain ⟨-, -, ⟨hMode, hUsp⟩ | ⟨hMode, hUsp⟩⟩ := h
  · exact (entryUsp_of_supervisor (hMode.trans hs)).trans hUsp
  · exact (entryUsp_of_supervisor hMode).trans (hUsp.trans (entryUsp_of_supervisor hs))

/-- An interrupt taken after an instruction run in supervisor mode leaves `saved_usp` as it was before both. -/
theorem exec_entryUsp {i : Instr} (hu : exec i s = .next u) (hs : s.psr.mode = .supervisor) :
    entryUsp u = s.savedUsp := by
  by_cases hi : i = .rti
  · subst hi
    rw [execRti_supervisor hs] at hu
    obtain rfl := Host.Outcome.next.inj hu
    exact entryUsp_of_returnsFromEntry s.advance.returnFromEntry_spec
  · exact (exec_privilege hu hi).entryUsp_eq hs

theorem exec_uspOrLeavesUser {i : Instr} (hu : exec i s = .next u) : KeepsUspOrLeavesUser s u := by
  by_cases hi : i = .rti
  · subst hi
    cases hs : s.psr.mode
    · rw [execRti_user hs] at hu
      obtain rfl := Host.Outcome.next.inj hu
      exact (s.exceptionEntry_privilege _).uspOrLeavesUser
    · rw [execRti_supervisor hs] at hu
      obtain rfl := Host.Outcome.next.inj hu
      obtain ⟨-, -, -, -, hUsp, -⟩ := s.advance.returnFromEntry_spec
      exact .inl hUsp
  · exact (exec_privilege hu hi).uspOrLeavesUser

theorem step_uspOrLeavesUser (hStep : step s = .next t) : KeepsUspOrLeavesUser s t := by
  rcases step_cases hStep with ⟨-, ⟨v, -, rfl⟩ | ⟨-, u, hu, rfl⟩⟩
  · exact (s.exceptionEntry_privilege v).uspOrLeavesUser
  · rcases u.interruptCheck_cases with ⟨-, -, hTaken⟩ | ⟨-, hNone⟩
    · obtain ⟨hMode, hUsp⟩ := u.interruptEntry_mode_savedUsp
      rw [hTaken]
      cases hs : s.psr.mode
      · exact .inr ⟨hs, hMode⟩
      · exact .inl (hUsp.trans (exec_entryUsp hu hs))
    · rw [hNone]; exact exec_uspOrLeavesUser hu

/-- Settles O46: `saved_ssp` changes by an RTI in supervisor mode alone, and `saved_usp` by leaving user mode. -/
theorem shadowSlotsChangeOnlyAtModeSwitches : Obligations.ShadowSlotsChangeOnlyAtModeSwitches := by
  intro s t hStep
  refine ⟨fun hUser => ?_, fun hSsp => (rti_of_savedSsp_ne hStep hSsp).1,
    fun hUsp => (step_uspOrLeavesUser hStep).resolve_left hUsp⟩
  by_contra hSsp
  have hSupervisor := (rti_of_savedSsp_ne hStep hSsp).2
  rw [hUser] at hSupervisor
  cases hSupervisor

/-! ## The host's side beside a step (R36, R37, R146) -/

/-- The state with another breakpoint set and other launch data. -/
def State.withHostSide (s : State) (bs : List Word) (l : Launch) : State :=
  { s with breakpoints := bs, launch := l }

section

variable (s : State) (bs : List Word) (l : Launch)

@[simp] theorem State.withHostSide_pc : (s.withHostSide bs l).pc = s.pc := rfl
@[simp] theorem State.withHostSide_psr : (s.withHostSide bs l).psr = s.psr := rfl
@[simp] theorem State.withHostSide_savedSsp : (s.withHostSide bs l).savedSsp = s.savedSsp := rfl
@[simp] theorem State.withHostSide_savedUsp : (s.withHostSide bs l).savedUsp = s.savedUsp := rfl
@[simp] theorem State.withHostSide_irq : (s.withHostSide bs l).irq = s.irq := rfl
@[simp] theorem State.withHostSide_reg (k : RegNum) : (s.withHostSide bs l).reg k = s.reg k := rfl
@[simp] theorem State.withHostSide_rawRead (a : Word) : (s.withHostSide bs l).rawRead a = s.rawRead a := rfl
@[simp] theorem State.withHostSide_pcRelative (off : BitVec 9) :
    (s.withHostSide bs l).pcRelative off = s.pcRelative off := rfl
@[simp] theorem State.withHostSide_baseOffset (base : RegNum) (off : BitVec 6) :
    (s.withHostSide bs l).baseOffset base off = s.baseOffset base off := rfl

/-! The one-field updates leave the host's side to whatever it is. -/

@[simp] theorem State.setPc_withHostSide (v : Word) :
    (s.withHostSide bs l).setPc v = (s.setPc v).withHostSide bs l := rfl
@[simp] theorem State.setPsr_withHostSide (q : PSR) :
    (s.withHostSide bs l).setPsr q = (s.setPsr q).withHostSide bs l := rfl
@[simp] theorem State.setMode_withHostSide (m : Mode) :
    (s.withHostSide bs l).setMode m = (s.setMode m).withHostSide bs l := rfl
@[simp] theorem State.setSavedSsp_withHostSide (v : Word) :
    (s.withHostSide bs l).setSavedSsp v = (s.setSavedSsp v).withHostSide bs l := rfl
@[simp] theorem State.setSavedUsp_withHostSide (v : Word) :
    (s.withHostSide bs l).setSavedUsp v = (s.setSavedUsp v).withHostSide bs l := rfl
@[simp] theorem State.setIrq_withHostSide (i : IrqLatch) :
    (s.withHostSide bs l).setIrq i = (s.setIrq i).withHostSide bs l := rfl
@[simp] theorem State.setReg_withHostSide (r : RegNum) (v : Word) :
    (s.withHostSide bs l).setReg r v = (s.setReg r v).withHostSide bs l := rfl
@[simp] theorem State.writeResult_withHostSide (dr : RegNum) (v : Word) :
    (s.withHostSide bs l).writeResult dr v = (s.writeResult dr v).withHostSide bs l := rfl
@[simp] theorem State.advance_withHostSide : (s.withHostSide bs l).advance = s.advance.withHostSide bs l := rfl

/-! The shared operations branch on nothing of the host's side. -/

@[simp] theorem State.afterMemRead_withHostSide (a : Word) :
    (s.withHostSide bs l).afterMemRead a = (s.afterMemRead a).withHostSide bs l := by
  unfold State.afterMemRead; split <;> rfl

@[simp] theorem State.memWrite_withHostSide (a v : Word) :
    (s.withHostSide bs l).memWrite a v = (s.memWrite a v).withHostSide bs l := by
  unfold State.memWrite; dsimp only; split <;> rfl

@[simp] theorem State.branch_withHostSide (n z p : Bool) (off : BitVec 9) :
    (s.withHostSide bs l).branch n z p off = (s.branch n z p off).withHostSide bs l := by
  unfold State.branch; rw [State.withHostSide_psr]; split <;> rfl

@[simp] theorem State.loadFrom_withHostSide (dr : RegNum) (ea : Word) :
    (s.withHostSide bs l).loadFrom dr ea = (s.loadFrom dr ea).withHostSide bs l := by
  simp [State.loadFrom_eq]

@[simp] theorem State.push_withHostSide (v : Word) :
    (s.withHostSide bs l).push v = (s.push v).withHostSide bs l := by
  simp [State.push_eq]

@[simp] theorem State.switchFromUser_withHostSide :
    (s.withHostSide bs l).switchFromUser = s.switchFromUser.withHostSide bs l := by
  cases hMode : s.psr.mode <;> simp [State.switchFromUser, State.enterSupervisor, hMode]

@[simp] theorem State.switchToUser_withHostSide :
    (s.withHostSide bs l).switchToUser = s.switchToUser.withHostSide bs l := by
  cases hMode : s.psr.mode <;> simp [State.switchToUser, hMode]

@[simp] theorem State.pushFrame_withHostSide : (s.withHostSide bs l).pushFrame = s.pushFrame.withHostSide bs l := by
  simp [State.pushFrame]

@[simp] theorem State.exceptionEntry_withHostSide (v : Vector8) :
    (s.withHostSide bs l).exceptionEntry v = (s.exceptionEntry v).withHostSide bs l := by
  simp [State.exceptionEntry, State.jumpThroughVector_eq]

@[simp] theorem State.interruptEntry_withHostSide :
    (s.withHostSide bs l).interruptEntry = s.interruptEntry.withHostSide bs l := by
  simp [State.interruptEntry, State.jumpThroughVector_eq]

@[simp] theorem State.returnFromEntry_withHostSide :
    (s.withHostSide bs l).returnFromEntry = s.returnFromEntry.withHostSide bs l := by
  simp [State.returnFromEntry]

@[simp] theorem State.trapTo_withHostSide (v : Vector8) :
    (s.withHostSide bs l).trapTo v = (s.trapTo v).withHostSide bs l := by
  simp [State.trapTo]

@[simp] theorem State.interruptCheck_withHostSide :
    (s.withHostSide bs l).interruptCheck.1 = s.interruptCheck.1.withHostSide bs l := by
  have hEligible : (s.withHostSide bs l).interruptEligible = s.interruptEligible := rfl
  cases h : s.interruptEligible <;> simp [State.interruptCheck, hEligible, h]

end

/-- An instruction does the same beside another host's side. -/
theorem exec_withHostSide {i : Instr} (h : exec i s = .next u) (bs : List Word) (l : Launch) :
    exec i (s.withHostSide bs l) = .next (u.withHostSide bs l) := by
  cases i
  case rti =>
    cases hMode : s.psr.mode
    · rw [execRti_user hMode] at h
      obtain rfl := Host.Outcome.next.inj h
      rw [execRti_user (s := s.withHostSide bs l) hMode, State.exceptionEntry_withHostSide]
    · rw [execRti_supervisor hMode] at h
      obtain rfl := Host.Outcome.next.inj h
      rw [execRti_supervisor (s := s.withHostSide bs l) hMode, State.advance_withHostSide,
        State.returnFromEntry_withHostSide]
  case reserved =>
    obtain rfl := Host.Outcome.next.inj h
    exact congrArg Host.Outcome.next (s.exceptionEntry_withHostSide bs l _)
  case ld | ldi | ldr | st | sti | str =>
    obtain rfl := Host.Outcome.next.inj h
    simp [exec, execLd, execLdi, execLdr, execSt, execSti, execStr, State.indirect]
  case br | brn | brz | brp | brnz | brnp | brzp | brnzp | brBare =>
    obtain rfl := Host.Outcome.next.inj h
    exact congrArg Host.Outcome.next (s.branch_withHostSide bs l _ _ _ _)
  case trap | getc | out | puts | input | putsp | halt =>
    obtain rfl := Host.Outcome.next.inj h
    exact congrArg Host.Outcome.next (s.trapTo_withHostSide bs l _)
  all_goals (cases h; rfl)

/-- The converse of `step_cases`, where step 1 finds an exception. -/
theorem step_of_exceptionCheck {v : Vector8} (hClock : s.clockEnabled = true)
    (hCheck : exceptionCheck s.wordAtPc s.psr.mode = some v) : step s = .next (s.exceptionEntry v) := by
  simp only [step, hClock, cond_true, State.cycleState, State.cycle, exec_of_exceptionCheck hCheck, hCheck]

/-- The converse of `step_cases`, where step 1 finds none. -/
theorem step_of_exec (hClock : s.clockEnabled = true) (hCheck : exceptionCheck s.wordAtPc s.psr.mode = none)
    (hu : exec (decode s.wordAtPc) s = .next u) : step s = .next u.interruptCheck.1 := by
  simp only [step, hClock, cond_true, State.cycleState, State.cycle, hu, hCheck]

/-- A step does the same beside another host's side. -/
theorem step_withHostSide (hStep : step s = .next t) (bs : List Word) (l : Launch) :
    step (s.withHostSide bs l) = .next (t.withHostSide bs l) := by
  rcases step_cases hStep with ⟨hClock, ⟨v, hCheck, rfl⟩ | ⟨hCheck, u, hu, rfl⟩⟩
  · rw [step_of_exceptionCheck (s := s.withHostSide bs l) hClock hCheck, State.exceptionEntry_withHostSide]
  · rw [step_of_exec (s := s.withHostSide bs l) hClock hCheck (exec_withHostSide hu bs l),
      State.interruptCheck_withHostSide]

/-- Settles O48: a step does the same beside another host's side. Beside its own, this says that it keeps it. -/
theorem hostSideDoesNotInfluenceTheCore : Obligations.HostSideDoesNotInfluenceTheCore := by
  intro s t bs l hStep
  have hOwn : t = t.withHostSide s.breakpoints s.launch :=
    Host.Outcome.next.inj (hStep.symm.trans (step_withHostSide hStep s.breakpoints s.launch))
  exact ⟨(congrArg State.breakpoints hOwn :), (congrArg State.launch hOwn :), step_withHostSide hStep bs l⟩

end Sys2Proof.Machine
end

section
/-! PROOFS. The memory (20_memory.md): the canonical form, the two accesses through the address decoder, the key
event, the load of an image, the vector cells, and the display output beside a step. -/

namespace Sys2Proof.Machine

variable {s t u : State}

/-! ## The memory array (R33, R50) -/

/-- A rising list of cells names no cell twice. -/
theorem nodup_of_rising {l : List Cell} (h : l.Pairwise (fun c d => c.1 < d.1)) : l.Nodup :=
  h.imp fun {c d} (hLt : c.1 < d.1) (hEq : c = d) => (hEq ▸ hLt).ne rfl

/-- A canonical memory lists a cell exactly when its address is in the address space, reads as its word, and the word
is not the one that an unlisted address reads as. -/
theorem Memory.mem_cells_iff {m : Memory} (h : m.wf) (c : Cell) :
    c ∈ m.cells ↔ c.1 < 2 ^ 16 ∧ m.read (BitVec.ofNat 16 c.1) = c.2 ∧ c.2 ≠ Config.unlistedWord := by
  have hCell (hLt : c.1 < 2 ^ 16) :
      c ∈ m.cells ↔ m.read (BitVec.ofNat 16 c.1) = c.2 ∧ c.2 ≠ Config.unlistedWord := by
    rw [← Memory.cell_mem_iff h, BitVec.toNat_ofNat, Nat.mod_eq_of_lt hLt]
  exact ⟨fun hc => ⟨(h.2 c hc).1, (hCell (h.2 c hc).1).mp hc⟩, fun ⟨hLt, hRead⟩ => (hCell hLt).mpr hRead⟩

/-- Settles O12: canonical memories that read alike list the same cells, and a rising list is given by its members. -/
theorem canonicalMemoriesThatReadAlikeAreEqual : Obligations.CanonicalMemoriesThatReadAlikeAreEqual := by
  refine ⟨fun m n hm hn hRead => ?_, fun m a v h => Memory.write_wf h a v⟩
  have hMem (c : Cell) : c ∈ m.cells ↔ c ∈ n.cells := by
    rw [Memory.mem_cells_iff hm, Memory.mem_cells_iff hn, hRead]
  have hPerm := (List.perm_ext_iff_of_nodup (nodup_of_rising hm.1) (nodup_of_rising hn.1)).mpr hMem
  have hCells : m.cells = n.cells :=
    hPerm.eq_of_pairwise (fun _ _ _ _ hLt hGt => absurd hGt (Nat.lt_asymm hLt)) hm.1 hn.1
  exact congrArg Memory.mk hCells

theorem State.rawWrite_rawRead_same (s : State) (a v : Word) : (s.rawWrite a v).rawRead a = v := by simp

theorem State.rawWrite_rawRead_of_ne {a b : Word} (h : b ≠ a) (s : State) (v : Word) :
    (s.rawWrite a v).rawRead b = s.rawRead b := by simp [h]

/-! ## The accesses through the address decoder (R54, R55) -/

theorem State.afterMemRead_kbdr (s : State) :
    s.afterMemRead kbdr = s.rawWrite kbsr (s.rawRead kbsr &&& 0x7FFF#16) := if_pos rfl

/-- Settles O10: the read of KBDR is the plain write of KBSR without its bit 15, and every other read is no write. -/
theorem memReadClearsKeyboardReadyAtKbdrOnly : Obligations.MemReadClearsKeyboardReadyAtKbdrOnly := by
  refine fun s a => ⟨rfl, fun h => State.afterMemRead_of_ne h s, ?_⟩
  rintro rfl
  have hRead : (s.memRead 0xFE02#16).2 = s.rawWrite kbsr (s.rawRead kbsr &&& 0x7FFF#16) := s.afterMemRead_kbdr
  rw [hRead]
  exact ⟨s.rawWrite_rawRead_same _ _, fun b hb => s.rawWrite_rawRead_of_ne hb _, fun _ => rfl, rfl⟩

theorem State.memWrite_of_ne {a : Word} (h : a ≠ ddr) (s : State) (v : Word) : s.memWrite a v = s.rawWrite a v :=
  if_neg h

theorem State.memWrite_ddr (s : State) (v : Word) :
    s.memWrite ddr v = ((s.rawWrite ddr v).displayByte (v.extractLsb' 0 8)).rawWrite dsr (s.rawRead dsr ||| bit15) := by
  have hDsr : (s.rawWrite ddr v).rawRead dsr = s.rawRead dsr := s.rawWrite_rawRead_of_ne (by decide) v
  simp [State.memWrite, hDsr]

/-- A data write writes memory and the display alone (R55). -/
theorem State.memWrite_frame (s : State) (a v : Word) :
    s.memWrite a v = { s with mem := (s.memWrite a v).mem, display := (s.memWrite a v).display } := by
  by_cases h : a = ddr
  · rw [h, State.memWrite_ddr]; rfl
  · rw [State.memWrite_of_ne h]; rfl

/-- Settles O11: a write elsewhere than DDR is the plain one, and at DDR the laws of `memWrite` give the cells and the
display. -/
theorem memWriteStoresAndShowsAtDdrOnly : Obligations.MemWriteStoresAndShowsAtDdrOnly := by
  refine fun s a v => ⟨(s.memWrite_rawRead a v a).trans (if_pos rfl), fun h => ?_, ?_, s.memWrite_frame a v⟩
  · rw [State.memWrite_of_ne h]
    exact ⟨fun b hb => s.rawWrite_rawRead_of_ne hb v, rfl⟩
  · rintro rfl
    refine ⟨s.memWrite_rawRead ddr v dsr, fun b hDdr hDsr => ?_, s.memWrite_display ddr v⟩
    refine (s.memWrite_rawRead ddr v b).trans ?_
    exact (if_neg hDdr).trans (if_neg fun h => hDsr h.1)

/-! ## The load of an image (R76) -/

/-- Word `j + 1` counted from `a` is word `j` counted from the address after it. -/
theorem add_ofNat_succ (a : Word) (j : Nat) : a + BitVec.ofNat 16 (j + 1) = a + 1#16 + BitVec.ofNat 16 j := by
  rw [BitVec.add_assoc, ← BitVec.ofNat_add, Nat.add_comm 1 j]

/-- A cell that no word of the image falls on keeps its word. -/
theorem Memory.read_writeFrom_of_outside {a b : Word} {ws : List Word}
    (h : ∀ j < ws.length, b ≠ a + BitVec.ofNat 16 j) (m : Memory) : (m.writeFrom a ws).read b = m.read b := by
  induction ws generalizing a m with
  | nil => rfl
  | cons w rest ih =>
    have hHead : b ≠ a := by simpa using h 0 (Nat.zero_lt_succ _)
    have hTail : ∀ j < rest.length, b ≠ a + 1#16 + BitVec.ofNat 16 j := fun j hj =>
      add_ofNat_succ a j ▸ h (j + 1) (Nat.succ_lt_succ hj)
    rw [Memory.writeFrom, ih hTail, Memory.read_write, if_neg hHead]

/-- A cell holds the last word of the image that falls on it. -/
theorem Memory.read_writeFrom_of_last {a : Word} {ws : List Word} {i : Nat} (hi : i < ws.length)
    (hLast : ∀ j, i < j → j < ws.length → a + BitVec.ofNat 16 j ≠ a + BitVec.ofNat 16 i) (m : Memory) :
    (m.writeFrom a ws).read (a + BitVec.ofNat 16 i) = ws[i] := by
  induction ws generalizing a m i with
  | nil => exact absurd hi (Nat.not_lt_zero i)
  | cons w rest ih =>
    cases i with
    | zero =>
      have hOutside : ∀ j < rest.length, a + BitVec.ofNat 16 0 ≠ a + 1#16 + BitVec.ofNat 16 j := fun j hj =>
        add_ofNat_succ a j ▸ (hLast (j + 1) (Nat.succ_pos j) (Nat.succ_lt_succ hj)).symm
      rw [Memory.writeFrom, Memory.read_writeFrom_of_outside hOutside]
      simp
    | succ i =>
      rw [Memory.writeFrom, add_ofNat_succ a i]
      refine ih (Nat.lt_of_succ_lt_succ hi) (fun j hLt hj => ?_) _
      rw [← add_ofNat_succ a i, ← add_ofNat_succ a j]
      exact hLast (j + 1) (Nat.succ_lt_succ hLt) (Nat.succ_lt_succ hj)

/-- Settles O13: the load is `writeFrom` on the memory, and nothing else. -/
theorem imageLoadPlacesEveryWord : Obligations.ImageLoadPlacesEveryWord := fun s _ =>
  ⟨fun _ hi hLast => Memory.read_writeFrom_of_last hi hLast s.mem,
    fun _ hOutside => Memory.read_writeFrom_of_outside hOutside s.mem, rfl⟩

/-! ## The vector cells (R77) -/

theorem State.exceptionEntry_pc (s : State) (v : Vector8) :
    (s.exceptionEntry v).pc = s.pushFrame.rawRead (interruptVectorCell v) := by
  rw [State.exceptionEntry, State.jumpThroughVector_eq, State.setPc_pc]

theorem State.interruptEntry_pc (s : State) :
    s.interruptEntry.pc = s.pushFrame.rawRead (interruptVectorCell s.irq.vec) := by
  rw [State.interruptEntry, State.jumpThroughVector_eq, State.setIrq_pc, State.setPc_pc, State.setPsr_rawRead]

theorem trapVectorCell_le (v : Vector8) : trapVectorCell v ≤ 0x00FF#16 := by
  unfold trapVectorCell; bv_omega

theorem interruptVectorCell_range (v : Vector8) :
    0x0100#16 ≤ interruptVectorCell v ∧ interruptVectorCell v ≤ 0x01FF#16 := by
  unfold interruptVectorCell; constructor <;> bv_omega

/-- Every device register lies above both vector tables (R52, R77). -/
theorem device_above_vectors : ∀ d ∈ [kbsr, kbdr, dsr, ddr, mcr], 0x01FF#16 < d := by
  simp [kbsr, kbdr, dsr, ddr, mcr]

/-- Settles O33: each entry reads its own table, and both tables lie below the device registers. -/
theorem vectorCellsGiveTheNewPc : Obligations.VectorCellsGiveTheNewPc := by
  intro s v
  obtain ⟨-, -, -, -, -, -, -, -, hTrapPc, -⟩ := s.trapTo_spec v
  have hTrap := trapVectorCell_le v
  obtain ⟨hLow, hHigh⟩ := interruptVectorCell_range v
  refine ⟨hTrapPc, s.exceptionEntry_pc v, s.interruptEntry_pc, hTrap, hLow, hHigh, fun d hd => ?_⟩
  have hAbove := device_above_vectors d hd
  change d ≠ trapVectorCell v ∧ d ≠ interruptVectorCell v
  constructor <;> bv_omega

/-! ## The key event (R62) -/

theorem State.latchKey_rawRead (s : State) (b : Byte) (a : Word) :
    (s.latchKey b).rawRead a = if a = kbsr then s.rawRead kbsr ||| bit15 else if a = kbdr then b.setWidth 16 else
      s.rawRead a := by
  have hNe : kbsr ≠ kbdr := by decide
  simp [State.latchKey, hNe]

/-- Latching a byte leaves bit 14 of KBSR and the priority, so it does not influence the request. -/
theorem State.latchKey_keyRequests (s : State) (b : Byte) : (s.latchKey b).keyRequests = s.keyRequests := by
  have hEnable : ((s.latchKey b).rawRead kbsr).getLsbD 14 = (s.rawRead kbsr).getLsbD 14 := by
    rw [State.latchKey_rawRead, if_pos rfl, BitVec.getLsbD_or]
    exact Bool.or_false _
  rw [State.keyRequests, hEnable]
  rfl

theorem State.keyRequests_iff (s : State) :
    s.keyRequests = true ↔ (s.rawRead kbsr).getLsbD 14 = true ∧ s.psr.pl.toNat < 4 := by
  rw [State.keyRequests, Bool.and_eq_true, decide_eq_true_iff]
  rfl

theorem State.keyEvent_irq (s : State) (b : Byte) :
    (s.keyEvent b).irq = if s.keyRequests then
      { asserted := true, pl := keyboardPriority, vec := keyboardVector } else s.irq := by
  rw [State.keyEvent_eq, State.setIrq_irq, State.latchKey_keyRequests]

theorem State.keyEvent_rawRead (s : State) (b : Byte) (a : Word) :
    (s.keyEvent b).rawRead a = (s.latchKey b).rawRead a := by
  rw [State.keyEvent_eq, State.setIrq_rawRead]

theorem State.keyEvent_frame (s : State) (b : Byte) :
    s.keyEvent b = { s with mem := (s.keyEvent b).mem, irq := (s.keyEvent b).irq } := by
  rw [State.keyEvent_eq]
  rfl

/-- Settles O50: the memory is that of `latchKey`, and the latch is rewritten exactly when the key may request. -/
theorem keyEventLatchesAndMayRequest : Obligations.KeyEventLatchesAndMayRequest := by
  intro s b
  have hRead (a : Word) := (s.keyEvent_rawRead b a).trans (s.latchKey_rawRead b a)
  refine ⟨hRead kbdr, hRead kbsr, fun a hKbdr hKbsr => ?_, fun h => ?_, fun h => ?_, s.keyEvent_frame b⟩
  · exact (hRead a).trans ((if_neg hKbsr).trans (if_neg hKbdr))
  · exact (s.keyEvent_irq b).trans (if_pos (s.keyRequests_iff.mpr h))
  · exact (s.keyEvent_irq b).trans (if_neg fun hReq => h (s.keyRequests_iff.mp hReq))

/-! ## The display output beside a step (R63)

Whatever the core does after the bytes `d` were shown, it does the same without them, and leaves them where they
are: every operation commutes with putting `d` before the display output. -/

/-- The state with the bytes `d` shown before everything its display has received. -/
def State.prependDisplay (s : State) (d : List Byte) : State := { s with display := d ++ s.display }

section

variable (s : State) (d : List Byte)

@[simp] theorem State.prependDisplay_pc : (s.prependDisplay d).pc = s.pc := rfl
@[simp] theorem State.prependDisplay_psr : (s.prependDisplay d).psr = s.psr := rfl
@[simp] theorem State.prependDisplay_irq : (s.prependDisplay d).irq = s.irq := rfl
@[simp] theorem State.prependDisplay_reg (k : RegNum) : (s.prependDisplay d).reg k = s.reg k := rfl
@[simp] theorem State.prependDisplay_rawRead (a : Word) : (s.prependDisplay d).rawRead a = s.rawRead a := rfl
@[simp] theorem State.prependDisplay_pcRelative (off : BitVec 9) :
    (s.prependDisplay d).pcRelative off = s.pcRelative off := rfl
@[simp] theorem State.prependDisplay_baseOffset (base : RegNum) (off : BitVec 6) :
    (s.prependDisplay d).baseOffset base off = s.baseOffset base off := rfl

@[simp] theorem State.setPc_prependDisplay (v : Word) :
    (s.prependDisplay d).setPc v = (s.setPc v).prependDisplay d := rfl
@[simp] theorem State.setPsr_prependDisplay (q : PSR) :
    (s.prependDisplay d).setPsr q = (s.setPsr q).prependDisplay d := rfl
@[simp] theorem State.setIrq_prependDisplay (i : IrqLatch) :
    (s.prependDisplay d).setIrq i = (s.setIrq i).prependDisplay d := rfl
@[simp] theorem State.setReg_prependDisplay (r : RegNum) (v : Word) :
    (s.prependDisplay d).setReg r v = (s.setReg r v).prependDisplay d := rfl
@[simp] theorem State.writeResult_prependDisplay (dr : RegNum) (v : Word) :
    (s.prependDisplay d).writeResult dr v = (s.writeResult dr v).prependDisplay d := rfl
@[simp] theorem State.advance_prependDisplay : (s.prependDisplay d).advance = s.advance.prependDisplay d := rfl
@[simp] theorem State.rawWrite_prependDisplay (a v : Word) :
    (s.prependDisplay d).rawWrite a v = (s.rawWrite a v).prependDisplay d := rfl

/-- The one operation that shows a byte shows it after those shown before. -/
@[simp] theorem State.displayByte_prependDisplay (b : Byte) :
    (s.prependDisplay d).displayByte b = (s.displayByte b).prependDisplay d :=
  congrArg (fun shown => { s with display := shown }) (List.append_assoc d s.display [b])

@[simp] theorem State.afterMemRead_prependDisplay (a : Word) :
    (s.prependDisplay d).afterMemRead a = (s.afterMemRead a).prependDisplay d := by
  unfold State.afterMemRead; split <;> rfl

@[simp] theorem State.memWrite_prependDisplay (a v : Word) :
    (s.prependDisplay d).memWrite a v = (s.memWrite a v).prependDisplay d := by
  by_cases h : a = ddr
  · subst h; simp [State.memWrite_ddr]
  · simp [State.memWrite_of_ne h]

@[simp] theorem State.branch_prependDisplay (n z p : Bool) (off : BitVec 9) :
    (s.prependDisplay d).branch n z p off = (s.branch n z p off).prependDisplay d := by
  unfold State.branch; rw [State.prependDisplay_psr]; split <;> rfl

@[simp] theorem State.loadFrom_prependDisplay (dr : RegNum) (ea : Word) :
    (s.prependDisplay d).loadFrom dr ea = (s.loadFrom dr ea).prependDisplay d := by
  simp [State.loadFrom_eq]

@[simp] theorem State.push_prependDisplay (v : Word) :
    (s.prependDisplay d).push v = (s.push v).prependDisplay d := by
  simp [State.push_eq]

@[simp] theorem State.switchFromUser_prependDisplay :
    (s.prependDisplay d).switchFromUser = s.switchFromUser.prependDisplay d := by
  unfold State.switchFromUser; rw [State.prependDisplay_psr]; split <;> rfl

@[simp] theorem State.switchToUser_prependDisplay :
    (s.prependDisplay d).switchToUser = s.switchToUser.prependDisplay d := by
  unfold State.switchToUser; rw [State.prependDisplay_psr]; split <;> rfl

@[simp] theorem State.pushFrame_prependDisplay :
    (s.prependDisplay d).pushFrame = s.pushFrame.prependDisplay d := by
  simp [State.pushFrame]

@[simp] theorem State.exceptionEntry_prependDisplay (v : Vector8) :
    (s.prependDisplay d).exceptionEntry v = (s.exceptionEntry v).prependDisplay d := by
  simp [State.exceptionEntry, State.jumpThroughVector_eq]

@[simp] theorem State.interruptEntry_prependDisplay :
    (s.prependDisplay d).interruptEntry = s.interruptEntry.prependDisplay d := by
  simp [State.interruptEntry, State.jumpThroughVector_eq]

@[simp] theorem State.returnFromEntry_prependDisplay :
    (s.prependDisplay d).returnFromEntry = s.returnFromEntry.prependDisplay d := by
  simp [State.returnFromEntry]

@[simp] theorem State.trapTo_prependDisplay (v : Vector8) :
    (s.prependDisplay d).trapTo v = (s.trapTo v).prependDisplay d := by
  simp [State.trapTo]

@[simp] theorem State.interruptCheck_prependDisplay :
    (s.prependDisplay d).interruptCheck.1 = s.interruptCheck.1.prependDisplay d := by
  have hEligible : (s.prependDisplay d).interruptEligible = s.interruptEligible := rfl
  cases h : s.interruptEligible <;> simp [State.interruptCheck, hEligible, h]

end

/-- An instruction does the same after other bytes were shown. -/
theorem exec_prependDisplay {i : Instr} (hu : exec i s = .next u) (d : List Byte) :
    exec i (s.prependDisplay d) = .next (u.prependDisplay d) := by
  cases i
  case rti =>
    cases hMode : s.psr.mode
    · rw [execRti_user hMode] at hu
      obtain rfl := Host.Outcome.next.inj hu
      rw [execRti_user (s := s.prependDisplay d) hMode, State.exceptionEntry_prependDisplay]
    · rw [execRti_supervisor hMode] at hu
      obtain rfl := Host.Outcome.next.inj hu
      rw [execRti_supervisor (s := s.prependDisplay d) hMode, State.advance_prependDisplay,
        State.returnFromEntry_prependDisplay]
  case reserved =>
    obtain rfl := Host.Outcome.next.inj hu
    exact congrArg Host.Outcome.next (s.exceptionEntry_prependDisplay d _)
  case ld | ldi | ldr | st | sti | str =>
    obtain rfl := Host.Outcome.next.inj hu
    simp [exec, execLd, execLdi, execLdr, execSt, execSti, execStr, State.indirect]
  case br | brn | brz | brp | brnz | brnp | brzp | brnzp | brBare =>
    obtain rfl := Host.Outcome.next.inj hu
    exact congrArg Host.Outcome.next (s.branch_prependDisplay d _ _ _ _)
  case trap | getc | out | puts | input | putsp | halt =>
    obtain rfl := Host.Outcome.next.inj hu
    exact congrArg Host.Outcome.next (s.trapTo_prependDisplay d _)
  all_goals (cases hu; rfl)

/-- A step does the same after other bytes were shown. -/
theorem step_prependDisplay (hStep : step s = .next t) (d : List Byte) :
    step (s.prependDisplay d) = .next (t.prependDisplay d) := by
  rcases step_cases hStep with ⟨hClock, ⟨v, hCheck, rfl⟩ | ⟨hCheck, u, hu, rfl⟩⟩
  · rw [step_of_exceptionCheck (s := s.prependDisplay d) hClock hCheck, State.exceptionEntry_prependDisplay]
  · rw [step_of_exec (s := s.prependDisplay d) hClock hCheck (exec_prependDisplay hu d),
      State.interruptCheck_prependDisplay]

/-- With the clock enabled a step answers a next state (R262). -/
theorem step_next_of_clockEnabled (hClock : s.clockEnabled = true) : ∃ t, step s = .next t := by
  cases hCheck : exceptionCheck s.wordAtPc s.psr.mode with
  | some v => exact ⟨_, step_of_exceptionCheck hClock hCheck⟩
  | none =>
    obtain ⟨u, hu⟩ := exec_next (decode s.wordAtPc) s
    exact ⟨_, step_of_exec hClock hCheck hu⟩

/-- Settles O49: the bytes are those that the same step shows on an empty display, and every earlier output is one put
before it. -/
theorem displayIsWrittenAndNeverReadBack : Obligations.DisplayIsWrittenAndNeverReadBack := by
  intro s t d hStep
  obtain ⟨t₀, hEmpty⟩ := step_next_of_clockEnabled (s := { s with display := [] }) (step_cases hStep).1
  have hFrom (e : List Byte) : step { s with display := e } = .next (t₀.prependDisplay e) := by
    have hPrepend : ({ s with display := [] } : State).prependDisplay e = { s with display := e } := by
      simp [State.prependDisplay]
    rw [← hPrepend]
    exact step_prependDisplay hEmpty e
  obtain rfl : t = t₀.prependDisplay s.display := Host.Outcome.next.inj (hStep.symm.trans (hFrom s.display))
  exact ⟨t₀.display, rfl, hFrom d⟩

end Sys2Proof.Machine
end

section
/-! PROOFS. The encodings (30_encoding.md): the word of an instruction and the instruction of a word, the nineteen rows
of the opcode table, and the assembler spellings. -/

namespace Sys2Proof

variable {v w : Word}

/-! ## The fields of a word (R93) -/

@[simp] theorem extractLsb'_place_same {k lo : Nat} (f : BitVec k) (h : lo + k ≤ 16) :
    (place f lo).extractLsb' lo k = f := by
  refine BitVec.eq_of_getLsbD_eq fun i hi => ?_
  have hBit : lo + i < 16 := by omega
  simp [-BitVec.getLsbD_eq_getElem, hi, hBit]

@[simp] theorem extractLsb'_place_disjoint {k lo a m : Nat} (f : BitVec k) (h : lo + k ≤ a ∨ a + m ≤ lo) :
    (place f lo).extractLsb' a m = 0#m := by
  refine BitVec.eq_of_getLsbD_eq fun i hi => ?_
  rcases h with hBelow | hAbove
  · have hOut : f.getLsbD (a + i - lo) = false := f.getLsbD_of_ge _ (by omega)
    simp [-BitVec.getLsbD_eq_getElem, hOut]
  · have hOut : ¬ lo ≤ a + i := by omega
    simp [-BitVec.getLsbD_eq_getElem, hOut]

/-- A field taken from a word and put back in its place is the word under the field's mask. -/
theorem place_extractLsb' (w : Word) (lo k : Nat) :
    place (w.extractLsb' lo k) lo = w &&& place (BitVec.allOnes k) lo := by
  refine word_ext fun i hi => ?_
  by_cases h : lo ≤ i
  · have hBit : lo + (i - lo) = i := by omega
    simp [-BitVec.getLsbD_eq_getElem, hi, h, hBit, Bool.and_comm]
  · simp [-BitVec.getLsbD_eq_getElem, h]

theorem maskBit_getLsbD (w : Word) (i : Nat) : maskBit (w.getLsbD i) = w.extractLsb' i 1 := by
  refine BitVec.eq_of_getLsbD_eq fun j hj => ?_
  obtain rfl : j = 0 := by omega
  simp [maskBit]

/-! ## What equal bits under a mask say of a word -/

theorem getLsbD_of_masked {m p : Word} (h : w &&& m = p) (i : Nat) (hm : m.getLsbD i = true) :
    w.getLsbD i = p.getLsbD i := by
  simp [-BitVec.getLsbD_eq_getElem, ← h, hm]

theorem opcodeOf_of_masked {m p : Word} (h : w &&& m = p) (hm : opcodeOf m = BitVec.allOnes 4) :
    opcodeOf w = opcodeOf p := by
  rw [← h, opcodeOf, opcodeOf, BitVec.extractLsb'_and, show m.extractLsb' 12 4 = _ from hm, BitVec.and_allOnes]

theorem masked_eq_of_masked_eq {m n : Word} (h : v &&& n = w &&& n) (hm : n &&& m = m) : v &&& m = w &&& m := by
  rw [← hm, ← BitVec.and_assoc, h, BitVec.and_assoc]

theorem eq_or_masked {x m : Word} (w : Word) (hm : m = 0#16) : x = x ||| (w &&& m) := by
  simp [hm]

/-! ## The decoder, row by row (R95, R96) -/

theorem opcode_bits {c : BitVec 4} (h : opcodeOf w = c) :
    w.getLsbD 15 = c.getLsbD 3 ∧ w.getLsbD 14 = c.getLsbD 2 ∧ w.getLsbD 13 = c.getLsbD 1 ∧
      w.getLsbD 12 = c.getLsbD 0 := by
  subst h
  simp [-BitVec.getLsbD_eq_getElem, opcodeOf]

theorem decode_br (h : opcodeOf w = 0b0000#4) :
    decode w = .br (w.getLsbD 11) (w.getLsbD 10) (w.getLsbD 9) (fieldOffset9 w) := by
  simp only [decode, opcode_bits h]; rfl

theorem decode_addReg (h : opcodeOf w = 0b0001#4) (hForm : w.getLsbD 5 = false) :
    decode w = .addReg (fieldDr w) (fieldBase w) (fieldSr2 w) := by
  simp only [decode, opcode_bits h, hForm]; rfl

theorem decode_addImm (h : opcodeOf w = 0b0001#4) (hForm : w.getLsbD 5 = true) :
    decode w = .addImm (fieldDr w) (fieldBase w) (fieldImm5 w) := by
  simp only [decode, opcode_bits h, hForm]; rfl

theorem decode_ld (h : opcodeOf w = 0b0010#4) : decode w = .ld (fieldDr w) (fieldOffset9 w) := by
  simp only [decode, opcode_bits h]; rfl

theorem decode_st (h : opcodeOf w = 0b0011#4) : decode w = .st (fieldDr w) (fieldOffset9 w) := by
  simp only [decode, opcode_bits h]; rfl

theorem decode_jsr (h : opcodeOf w = 0b0100#4) (hForm : w.getLsbD 11 = true) : decode w = .jsr (fieldOffset11 w) := by
  simp only [decode, opcode_bits h, hForm]; rfl

theorem decode_jsrr (h : opcodeOf w = 0b0100#4) (hForm : w.getLsbD 11 = false) : decode w = .jsrr (fieldBase w) := by
  simp only [decode, opcode_bits h, hForm]; rfl

theorem decode_andReg (h : opcodeOf w = 0b0101#4) (hForm : w.getLsbD 5 = false) :
    decode w = .andReg (fieldDr w) (fieldBase w) (fieldSr2 w) := by
  simp only [decode, opcode_bits h, hForm]; rfl

theorem decode_andImm (h : opcodeOf w = 0b0101#4) (hForm : w.getLsbD 5 = true) :
    decode w = .andImm (fieldDr w) (fieldBase w) (fieldImm5 w) := by
  simp only [decode, opcode_bits h, hForm]; rfl

theorem decode_ldr (h : opcodeOf w = 0b0110#4) : decode w = .ldr (fieldDr w) (fieldBase w) (fieldOffset6 w) := by
  simp only [decode, opcode_bits h]; rfl

theorem decode_str (h : opcodeOf w = 0b0111#4) : decode w = .str (fieldDr w) (fieldBase w) (fieldOffset6 w) := by
  simp only [decode, opcode_bits h]; rfl

theorem decode_not (h : opcodeOf w = 0b1001#4) : decode w = .not (fieldDr w) (fieldBase w) := by
  simp only [decode, opcode_bits h]; rfl

theorem decode_ldi (h : opcodeOf w = 0b1010#4) : decode w = .ldi (fieldDr w) (fieldOffset9 w) := by
  simp only [decode, opcode_bits h]; rfl

theorem decode_sti (h : opcodeOf w = 0b1011#4) : decode w = .sti (fieldDr w) (fieldOffset9 w) := by
  simp only [decode, opcode_bits h]; rfl

theorem decode_jmp (h : opcodeOf w = 0b1100#4) : decode w = .jmp (fieldBase w) := by
  simp only [decode, opcode_bits h]; rfl

theorem decode_lea (h : opcodeOf w = 0b1110#4) : decode w = .lea (fieldDr w) (fieldOffset9 w) := by
  simp only [decode, opcode_bits h]; rfl

theorem decode_trap (h : opcodeOf w = 0b1111#4) : decode w = .trap (fieldTrapvect8 w) := by
  simp only [decode, opcode_bits h]; rfl

/-- Settles O2: the decoder's rows, those of ADD, AND and opcode 0100 put together by their form bit. -/
theorem opcodeAndFormBitSelectTheInstruction : Obligations.OpcodeAndFormBitSelectTheInstruction := by
  refine fun w => ⟨decode_br, fun h => ?add, decode_ld, decode_st, fun h => ?call, fun h => ?and, decode_ldr,
    decode_str, (decode_eq_rti_iff w).mpr, decode_not, decode_ldi, decode_sti, decode_jmp,
    (decode_eq_reserved_iff w).mpr, decode_lea, decode_trap⟩
  case add =>
    split
    next hForm => exact decode_addImm h hForm
    next hForm => exact decode_addReg h (Bool.eq_false_of_not_eq_true hForm)
  case call =>
    split
    next hForm => exact decode_jsr h hForm
    next hForm => exact decode_jsrr h (Bool.eq_false_of_not_eq_true hForm)
  case and =>
    split
    next hForm => exact decode_andImm h hForm
    next hForm => exact decode_andReg h (Bool.eq_false_of_not_eq_true hForm)

/-- Settles O1, by evaluation of the decoder on the ten words. -/
theorem specWordsDecodeToTheirInstructions : Obligations.SpecWordsDecodeToTheirInstructions := by
  unfold Obligations.SpecWordsDecodeToTheirInstructions
  decide

/-! ## Decode of encode (R101, R111, R112) -/

/-- The fixed bits of the canonical word select the row of the instruction, and its fields are the operands: each row of
the decoder leaves its opcode and form bit to show, and the fields of the word. -/
theorem decode_encode {i : Instr} (h : i.wellFormed = true) : decode (encode i) = i := by
  cases i
  case' addReg => rw [decode_addReg]
  case' addImm => rw [decode_addImm]
  case' andReg => rw [decode_andReg]
  case' andImm => rw [decode_andImm]
  case' not => rw [decode_not]
  case' br => rw [decode_br]
  case' jmp => rw [decode_jmp]
  case' jsr => rw [decode_jsr]
  case' jsrr => rw [decode_jsrr]
  case' ld => rw [decode_ld]
  case' ldi => rw [decode_ldi]
  case' ldr => rw [decode_ldr]
  case' lea => rw [decode_lea]
  case' st => rw [decode_st]
  case' sti => rw [decode_sti]
  case' str => rw [decode_str]
  case' trap => rw [decode_trap]
  case rti | reserved => rfl
  case ret | getc | out | puts | input | putsp | halt => cases h
  case brn | brz | brp | brnz | brnp | brzp | brnzp | brBare => cases h
  all_goals
    simp [encode, opcodeOf, fieldDr, fieldBase, fieldSr2, fieldImm5, fieldOffset6, fieldOffset9, fieldOffset11,
      fieldTrapvect8, BitVec.extractLsb'_or, maskBit, -BitVec.getLsbD_eq_getElem]

theorem canonical_wellFormed (i : Instr) : i.canonical.wellFormed = true := by
  cases i <;> rfl

/-- A spelling has the word of the core instruction it stands for. -/
theorem encode_canonical (i : Instr) : encode i.canonical = encode i := by
  cases i <;> rfl

/-- Settles O5: a spelling has the word of its core instruction, which is well-formed. -/
theorem decodeOfEncodeIsTheInstruction : Obligations.DecodeOfEncodeIsTheInstruction := by
  refine fun i => ⟨decode_encode, ?_⟩
  calc decode (encode i)
    _ = decode (encode i.canonical) := by rw [encode_canonical]
    _ = i.canonical := decode_encode (canonical_wellFormed i)

/-! ## The rows of the opcode table (R97, R101) -/

/-- The bits that hold the operands of a row's words: those that neither select the row nor are ignored. -/
def OpcodeRow.fields (row : OpcodeRow) : Word := ~~~(row.mask ||| row.ignored)

/-- `i` is what `row` reads in `w`: an instruction of the row's mnemonic whose canonical word has the fixed bits of the
row and the operands of `w`. -/
def OpcodeRow.ReadsAs (row : OpcodeRow) (w : Word) (i : Instr) : Prop :=
  row.mnemonic = i.mnemonic ∧ encode i = encode (decode row.pattern) ||| (w &&& row.fields)

theorem OpcodeRow.ReadsAs.of_decode {row : OpcodeRow} {i : Instr} (h : decode w = i) (hReads : row.ReadsAs w i) :
    row.ReadsAs w (decode w) := by
  rwa [h]

/-- Every row reads in its words what the decoder answers for them. -/
theorem readsAs_of_covers : ∀ row ∈ opcodeRows, row.covers w → row.ReadsAs w (decode w) := by
  simp only [opcodeRows, List.cons_append, List.nil_append, List.forall_mem_cons, OpcodeRow.covers]
  refine ⟨
    fun h => .of_decode (decode_addReg (opcodeOf_of_masked h rfl) (getLsbD_of_masked h 5 rfl)) ⟨rfl, ?_⟩,
    fun h => .of_decode (decode_addImm (opcodeOf_of_masked h rfl) (getLsbD_of_masked h 5 rfl)) ⟨rfl, ?_⟩,
    fun h => .of_decode (decode_andReg (opcodeOf_of_masked h rfl) (getLsbD_of_masked h 5 rfl)) ⟨rfl, ?_⟩,
    fun h => .of_decode (decode_andImm (opcodeOf_of_masked h rfl) (getLsbD_of_masked h 5 rfl)) ⟨rfl, ?_⟩,
    fun h => .of_decode (decode_not (opcodeOf_of_masked h rfl)) ⟨rfl, ?_⟩,
    fun h => .of_decode (decode_br (opcodeOf_of_masked h rfl)) ⟨rfl, ?_⟩,
    fun h => .of_decode (decode_jmp (opcodeOf_of_masked h rfl)) ⟨rfl, ?_⟩,
    fun h => .of_decode (decode_jsr (opcodeOf_of_masked h rfl) (getLsbD_of_masked h 11 rfl)) ⟨rfl, ?_⟩,
    fun h => .of_decode (decode_jsrr (opcodeOf_of_masked h rfl) (getLsbD_of_masked h 11 rfl)) ⟨rfl, ?_⟩,
    fun h => .of_decode (decode_ld (opcodeOf_of_masked h rfl)) ⟨rfl, ?_⟩,
    fun h => .of_decode (decode_ldi (opcodeOf_of_masked h rfl)) ⟨rfl, ?_⟩,
    fun h => .of_decode (decode_ldr (opcodeOf_of_masked h rfl)) ⟨rfl, ?_⟩,
    fun h => .of_decode (decode_lea (opcodeOf_of_masked h rfl)) ⟨rfl, ?_⟩,
    fun h => .of_decode (decode_st (opcodeOf_of_masked h rfl)) ⟨rfl, ?_⟩,
    fun h => .of_decode (decode_sti (opcodeOf_of_masked h rfl)) ⟨rfl, ?_⟩,
    fun h => .of_decode (decode_str (opcodeOf_of_masked h rfl)) ⟨rfl, ?_⟩,
    fun h => .of_decode ((decode_eq_rti_iff w).mpr (opcodeOf_of_masked h rfl)) ⟨rfl, eq_or_masked w rfl⟩,
    fun h => .of_decode (decode_trap (opcodeOf_of_masked h rfl)) ⟨rfl, ?_⟩,
    fun h => .of_decode ((decode_eq_reserved_iff w).mpr (opcodeOf_of_masked h rfl)) ⟨rfl, eq_or_masked w rfl⟩,
    List.forall_mem_nil _⟩
  all_goals
    simp only [encode, fieldDr, fieldBase, fieldSr2, fieldImm5, fieldOffset6, fieldOffset9, fieldOffset11,
      fieldTrapvect8, maskBit_getLsbD, place_extractLsb', ← BitVec.and_or_distrib_left, BitVec.or_assoc]
    rfl

/-- Of each row: the canonical word without operands is the pattern but for ignored bits, mask and fields lie outside
the ignored bits, and together they are all the bits outside them. -/
theorem opcodeRow_bits : ∀ row ∈ opcodeRows,
    encode (decode row.pattern) &&& ~~~row.ignored = row.pattern ∧
    ~~~row.ignored &&& row.mask = row.mask ∧ ~~~row.ignored &&& row.fields = row.fields ∧
    row.mask ||| (row.fields &&& ~~~row.ignored) = ~~~row.ignored := by
  decide

/-- Settles O6: under the row's mask the word is the pattern, and its fields stand in the canonical word. -/
theorem encodeOfDecodeKeepsEveryDecodedBit : Obligations.EncodeOfDecodeKeepsEveryDecodedBit := by
  intro w row hRow hCovers
  obtain ⟨hFixed, -, -, hAll⟩ := opcodeRow_bits row hRow
  obtain ⟨-, hReads⟩ := readsAs_of_covers row hRow hCovers
  calc encode (decode w) &&& ~~~row.ignored
    _ = row.pattern ||| (w &&& (row.fields &&& ~~~row.ignored)) := by
      rw [hReads, BitVec.and_or_distrib_right, hFixed, BitVec.and_assoc]
    _ = w &&& (row.mask ||| (row.fields &&& ~~~row.ignored)) := by
      rw [← show w &&& row.mask = row.pattern from hCovers, BitVec.and_or_distrib_left]
    _ = w &&& ~~~row.ignored := by rw [hAll]

/-- Settles O4: the row covers both words and reads one canonical word in them. -/
theorem ignoredBitsDoNotChangeTheInstruction : Obligations.IgnoredBitsDoNotChangeTheInstruction := by
  intro row hRow v w hCovers hAgree
  obtain ⟨-, hMask, hFields, -⟩ := opcodeRow_bits row hRow
  have hCovers' : row.covers w := (masked_eq_of_masked_eq hAgree hMask).symm.trans hCovers
  obtain ⟨-, hReads⟩ := readsAs_of_covers row hRow hCovers
  obtain ⟨-, hReads'⟩ := readsAs_of_covers row hRow hCovers'
  have hWord : encode (decode w) = encode (decode v) := by
    rw [hReads, hReads', masked_eq_of_masked_eq hAgree hFields]
  calc decode w
    _ = decode (encode (decode w)) := (decode_encode (decode_wellFormed w)).symm
    _ = decode (encode (decode v)) := by rw [hWord]
    _ = decode v := decode_encode (decode_wellFormed v)

/-- Whatever the opcode and bits 11 and 5 are, there is a row that asks for them and looks at no other bit. -/
theorem selectBits_covered : ∀ (c : BitVec 4) (b11 b5 : BitVec 1), ∃ row ∈ opcodeRows,
    0xF820#16 &&& row.mask = row.mask ∧ (place c 12 ||| place b11 11 ||| place b5 5) &&& row.mask = row.pattern := by
  decide

theorem exists_row_covers (w : Word) : ∃ row ∈ opcodeRows, row.covers w := by
  have hSelect : place (opcodeOf w) 12 ||| place (w.extractLsb' 11 1) 11 ||| place (w.extractLsb' 5 1) 5 =
      w &&& 0xF820#16 := by
    simp only [opcodeOf, place_extractLsb', ← BitVec.and_or_distrib_left]
    rfl
  obtain ⟨row, hRow, hMask, hPattern⟩ :=
    selectBits_covered (opcodeOf w) (w.extractLsb' 11 1) (w.extractLsb' 5 1)
  refine ⟨row, hRow, ?_⟩
  rwa [hSelect, BitVec.and_assoc, hMask] at hPattern

/-- Two rows whose patterns agree where both masks look are one row. -/
theorem row_eq_of_patterns_agree : ∀ row ∈ opcodeRows, ∀ other ∈ opcodeRows,
    other.pattern &&& row.mask = row.pattern &&& other.mask → other = row := by
  decide

theorem row_eq_of_covers {row other : OpcodeRow} (hRow : row ∈ opcodeRows) (hOther : other ∈ opcodeRows)
    (h : row.covers w) (h' : other.covers w) : other = row := by
  refine row_eq_of_patterns_agree row hRow other hOther ?_
  rw [← show w &&& row.mask = row.pattern from h, ← show w &&& other.mask = other.pattern from h',
    BitVec.and_assoc, BitVec.and_assoc, BitVec.and_comm other.mask]

/-- Settles O3: some row covers the word, it reads what the decoder answers, and no two rows cover one word. -/
theorem opcodeTableRowsPartitionAllWords : Obligations.OpcodeTableRowsPartitionAllWords := by
  intro w
  obtain ⟨row, hRow, hCovers⟩ := exists_row_covers w
  obtain ⟨hMnemonic, -⟩ := readsAs_of_covers row hRow hCovers
  exact ⟨decode_wellFormed w, row, hRow, hCovers, hMnemonic,
    fun other hOther hCovers' => row_eq_of_covers hRow hOther hCovers hCovers'⟩

end Sys2Proof

namespace Sys2Proof.Machine

open Sys2Proof.Safety

/-! ## The assembler spellings (R111, R112) -/

theorem exec_canonical (i : Instr) (s : State) : exec i s = exec i.canonical s := by
  cases i <;> rfl

/-- Settles O7: the meaning of a spelling is that of its core instruction, constructor by constructor. -/
theorem spellingsExecuteAsTheirCoreInstruction : Obligations.SpellingsExecuteAsTheirCoreInstruction :=
  fun i s => ⟨exec_canonical i s, canonical_wellFormed i⟩

/-- Settles O28: each spelling runs the trap operation on its vector. -/
theorem trapSpellingsEnterTheirVectors : Obligations.TrapSpellingsEnterTheirVectors := fun s =>
  ⟨⟨_, rfl, s.trapTo_spec 0x20#8⟩, ⟨_, rfl, s.trapTo_spec 0x21#8⟩, ⟨_, rfl, s.trapTo_spec 0x22#8⟩,
    ⟨_, rfl, s.trapTo_spec 0x23#8⟩, ⟨_, rfl, s.trapTo_spec 0x24#8⟩, ⟨_, rfl, s.trapTo_spec 0x25#8⟩⟩

theorem State.setPc_onlyMovesPc (s : State) (target : Word) : OnlyMovesPc target s (s.setPc target) :=
  ⟨rfl, fun _ _ => rfl, ⟨rfl, rfl, rfl⟩, ⟨rfl, rfl, rfl, rfl⟩, ⟨fun _ => rfl, rfl⟩, ⟨rfl, rfl, rfl⟩⟩

/-- A branch moves the `pc` alone: to the target where its condition holds, past the instruction where not (R160). -/
theorem State.branch_cases (s : State) {n z p : Bool} (off : BitVec 9) {cond : Prop}
    (hCond : s.psr.taken n z p = true ↔ cond) :
    (cond ∧ OnlyMovesPc (s.pc + 1#16 + off.signExtend 16) s (s.branch n z p off)) ∨
    (¬ cond ∧ OnlyMovesPc (s.pc + 1#16) s (s.branch n z p off)) := by
  unfold State.branch
  split
  next hTaken => exact .inl ⟨hCond.mp hTaken, s.setPc_onlyMovesPc _⟩
  next hNot => exact .inr ⟨fun h => hNot (hCond.mpr h), s.setPc_onlyMovesPc _⟩

/-- Settles O18: each spelling is a branch on its own flags. -/
theorem branchSpellingsBranchOnTheirFlags : Obligations.BranchSpellingsBranchOnTheirFlags := by
  intro s off
  refine ⟨⟨_, rfl, s.branch_cases off ?_⟩, ⟨_, rfl, s.branch_cases off ?_⟩,
    ⟨_, rfl, s.branch_cases off ?_⟩, ⟨_, rfl, s.branch_cases off ?_⟩,
    ⟨_, rfl, s.branch_cases off ?_⟩, ⟨_, rfl, s.branch_cases off ?_⟩,
    ⟨_, rfl, s.branch_cases off ?_⟩, ⟨_, rfl, s.branch_cases off ?_⟩⟩
  all_goals simp [PSR.taken, or_assoc]

/-! ## The illegal opcode (R98, R141) -/

theorem exceptionCheck_eq_illegalOpcode_iff (w : Word) (m : Mode) :
    exceptionCheck w m = some illegalOpcodeVector ↔ opcodeOf w = 0b1101#4 := by
  have hVectors : privilegeViolationVector ≠ illegalOpcodeVector := by decide
  unfold exceptionCheck
  split
  next hOp => simp [hOp]
  next hOp =>
    split
    · simp [hOp, hVectors]
    · simp [hOp]

/-- Settles O32: the decoder and step 1 look for the same opcode, and a step that finds an exception is its entry. -/
theorem onlyOpcode1101IsIllegal : Obligations.OnlyOpcode1101IsIllegal :=
  ⟨decode_eq_reserved_iff, exceptionCheck_eq_illegalOpcode_iff, fun _ hClock hOp =>
    step_of_exceptionCheck hClock ((exceptionCheck_eq_illegalOpcode_iff _ _).mpr hOp)⟩

end Sys2Proof.Machine
end

section
/-! PROOFS. The cycle (40_cycle.md): the step as the meaning of the decoded word followed by step 4. -/

namespace Sys2Proof.Machine

/-- Settles O34, by the two outcomes of step 1: where it finds an exception, the meaning of the word is already the
entry in which the step ends, and where it finds none, step 4 follows. -/
theorem stepRunsTheDecodedInstruction : Obligations.StepRunsTheDecodedInstruction := by
  rintro s u _ hClock rfl hExec
  refine ⟨decode_wellFormed _, ?_⟩
  cases hCheck : exceptionCheck (s.rawRead s.pc) s.psr.mode with
  | some v =>
    obtain rfl : u = s.exceptionEntry v :=
      Host.Outcome.next.inj (hExec.symm.trans (exec_of_exceptionCheck hCheck))
    exact step_of_exceptionCheck hClock hCheck
  | none => exact step_of_exec hClock hCheck hExec

end Sys2Proof.Machine
end

section
/-! PROOFS. The ALU instructions (41_alu.md): each writes one result word past the instruction. -/

namespace Sys2Proof.Machine

open Sys2Proof.Safety

/-- The write of a result from a state past its instruction, told from the state before it: the `pc` is the one field
in which the two differ (R142, R29). -/
theorem State.advance_writeResult_spec (s : State) (dr : RegNum) (v : Word) :
    WritesResult dr v s (s.advance.writeResult dr v) ∧ KeepsMemory s (s.advance.writeResult dr v) := by
  obtain ⟨hReg, hRegs, hFlags, hPrivilege, hHost, hMemory, hPc⟩ := s.advance.writeResult_spec dr v
  exact ⟨⟨hReg, hRegs, hFlags, hPc, hPrivilege, hHost⟩, hMemory⟩

/-- Settles O14: both forms write the sum of operands read before the write (R144). -/
theorem addWritesTheSumAndItsFlags : Obligations.AddWritesTheSumAndItsFlags := fun s dr _ =>
  ⟨fun _ => ⟨_, rfl, s.advance_writeResult_spec dr _⟩, fun _ => ⟨_, rfl, s.advance_writeResult_spec dr _⟩⟩

/-- Settles O15: both forms write the conjunction of operands read before the write (R144). -/
theorem andWritesTheConjunctionAndItsFlags : Obligations.AndWritesTheConjunctionAndItsFlags := fun s dr _ =>
  ⟨fun _ => ⟨_, rfl, s.advance_writeResult_spec dr _⟩, fun _ => ⟨_, rfl, s.advance_writeResult_spec dr _⟩⟩

/-- Settles O16: the complement that NOT writes is the difference from the word of all ones. -/
theorem notWritesTheComplementAndItsFlags : Obligations.NotWritesTheComplementAndItsFlags := by
  intro s dr sr
  have hComplement : 0xFFFF#16 - s.reg sr = ~~~s.reg sr := BitVec.allOnes_sub_eq_not _
  rw [hComplement]
  exact ⟨_, rfl, s.advance_writeResult_spec dr _⟩

end Sys2Proof.Machine
end

section
/-! PROOFS. Control transfer (42_control.md): a branch or a jump moves the `pc` alone, a call writes `x[7]` besides. -/

namespace Sys2Proof.Machine

open Sys2Proof.Safety

/-! ## Branches and jumps (R160 to R162) -/

/-- Settles O17, by the two outcomes of a branch. -/
theorem branchIsTakenOnASelectedFlag : Obligations.BranchIsTakenOnASelectedFlag := by
  intro s n z p off
  have hCond : s.psr.taken n z p = true ↔
      (n = true ∧ s.psr.n = true) ∨ (z = true ∧ s.psr.z = true) ∨ (p = true ∧ s.psr.p = true) := by
    simp [PSR.taken, or_assoc]
  refine ⟨_, rfl, ?_⟩
  rcases s.branch_cases off hCond with ⟨hTaken, hMoves⟩ | ⟨hNot, hMoves⟩
  · rwa [if_pos hTaken]
  · rwa [if_neg hNot]

/-- Settles O19: the fetch increments the `pc` alone, so the base register read is the old one, and the jump replaces
that `pc`. -/
theorem jmpGoesToTheBaseRegister : Obligations.JmpGoesToTheBaseRegister := fun s base =>
  ⟨_, rfl, s.setPc_onlyMovesPc (s.reg base)⟩

/-- Settles O20: RET is the spelling of `JMP R7` to the decoder and to the core, so it moves the `pc` as JMP does. -/
theorem retIsJmpThroughRegisterSeven : Obligations.RetIsJmpThroughRegisterSeven := by
  have hDecode : decode (encode .ret) = .jmp 7#3 := (decodeOfEncodeIsTheInstruction .ret).2
  refine ⟨rfl, hDecode, fun s => ?_⟩
  have hExec : exec .ret s = exec (.jmp 7#3) s := exec_canonical .ret s
  rw [hExec]
  exact ⟨rfl, jmpGoesToTheBaseRegister s 7#3⟩

/-! ## Calls (R163, R164) -/

/-- A call of any target links in `x[7]` and moves the `pc`; the target is a word, evaluated before the link is
written (D9). -/
theorem State.call_spec (s : State) (target : Word) : Calls target s (s.call target) := by
  refine ⟨rfl, s.advance.setReg_reg_same 7#3 _, fun r hr => ?_, ⟨rfl, rfl, rfl⟩, ⟨rfl, rfl, rfl, rfl⟩,
    ⟨fun _ => rfl, rfl⟩, ⟨rfl, rfl, rfl⟩⟩
  exact s.advance.setReg_reg_other _ (List.ne_of_not_mem_cons hr)

/-- Settles O21: both instructions are the call of a target read from the old registers. -/
theorem jsrAndJsrrLinkInRegisterSeven : Obligations.JsrAndJsrrLinkInRegisterSeven := fun s =>
  ⟨fun _ => ⟨_, rfl, s.call_spec _⟩, fun base => ⟨_, rfl, s.call_spec (s.reg base)⟩⟩

end Sys2Proof.Machine
end

section
/-! PROOFS. Loads, stores and LEA (43_load_store.md): the accesses of an instruction are data reads past its fetch, and
then one load or one store. -/

namespace Sys2Proof.Machine

open Sys2Proof.Safety

variable {reads : List Word} {s u : State}

/-! ## Past the fetch and some data reads (R142, R54) -/

/-- `u` is `s` past the fetch of an instruction and then the data reads of the cells `reads`: the state from which the
instruction makes its next access. -/
structure PastReads (reads : List Word) (s u : State) : Prop where
  pc : u.pc = s.pc + 1#16
  regs : KeepsRegs [] s u
  flags : KeepsFlags s u
  privilege : KeepsPrivilege s u
  hostSide : KeepsHostSide s u
  memory : ReadsOnly reads s u

@[simp] theorem cellAfterReads_nil (s : State) (a : Word) : cellAfterReads [] s a = s.rawRead a := by
  simp [cellAfterReads]

/-- One more data read: KBSR loses bit 15 if KBDR is the cell read now or was among those read before. -/
theorem cellAfterReads_append (h : ∀ b, u.rawRead b = cellAfterReads reads s b) (a b : Word) :
    cellAfterReads [a] u b = cellAfterReads (reads ++ [a]) s b := by
  unfold cellAfterReads at h ⊢
  rw [h]
  by_cases hKbsr : b = kbsr
  · by_cases hBefore : kbdr ∈ reads
    · by_cases hNow : kbdr = a
      · simp [hKbsr, hBefore, ← hNow, BitVec.and_assoc]
      · simp [hKbsr, hBefore, hNow]
    · simp [hKbsr, hBefore]
  · simp [hKbsr]

theorem State.advance_pastReads (s : State) : PastReads [] s s.advance where
  pc := rfl
  regs _ _ := rfl
  flags := ⟨rfl, rfl, rfl⟩
  privilege := ⟨rfl, rfl, rfl, rfl⟩
  hostSide := ⟨rfl, rfl, rfl⟩
  memory := ⟨fun a => (cellAfterReads_nil s a).symm, rfl⟩

theorem PastReads.afterMemRead (h : PastReads reads s u) (a : Word) :
    PastReads (reads ++ [a]) s (u.afterMemRead a) where
  pc := (u.afterMemRead_pc a).trans h.pc
  regs r hr := (u.afterMemRead_reg a r).trans (h.regs r hr)
  flags := by simpa [KeepsFlags] using h.flags
  privilege := by simpa [KeepsPrivilege] using h.privilege
  hostSide := by simpa [KeepsHostSide] using h.hostSide
  memory := by
    obtain ⟨hCells, hDisplay⟩ := h.memory
    exact ⟨fun b => (u.afterMemRead_rawRead a b).trans (cellAfterReads_append hCells a b),
      (u.afterMemRead_display a).trans hDisplay⟩

/-! ## The last access -/

/-- A write of a result touches no field of `PastReads` but the register and the flags (R29). -/
theorem PastReads.writeResult (h : PastReads reads s u) (dr : RegNum) (v : Word) :
    WritesResult dr v s (u.writeResult dr v) ∧ ReadsOnly reads s (u.writeResult dr v) := by
  obtain ⟨hReg, hRegs, hFlags, -⟩ := u.writeResult_spec dr v
  exact ⟨⟨hReg, fun r hr => (hRegs r hr).trans (h.regs r List.not_mem_nil), hFlags, h.pc, h.privilege, h.hostSide⟩,
    h.memory⟩

/-- A load takes the word as the reads before it left it, and is itself one more read (R171 to R173). -/
theorem PastReads.loadFrom (h : PastReads reads s u) (dr : RegNum) (ea : Word) :
    WritesResult dr (cellAfterReads reads s ea) s (u.loadFrom dr ea) ∧
    ReadsOnly (reads ++ [ea]) s (u.loadFrom dr ea) := by
  rw [State.loadFrom_eq, h.memory.1 ea]
  exact (h.afterMemRead ea).writeResult dr _

/-- A store writes over the cells as the reads before it left them (R175 to R177). -/
theorem PastReads.memWrite (h : PastReads reads s u) (ea v : Word) : Stores reads ea v s (u.memWrite ea v) := by
  obtain ⟨hCells, hDisplay⟩ := h.memory
  refine ⟨fun a => ?_, ?_, (u.memWrite_pc ea v).trans h.pc, fun r hr => (u.memWrite_reg ea v r).trans (h.regs r hr),
    ?_, ?_, ?_⟩
  · rw [State.memWrite_rawRead, funext hCells]
  · rw [State.memWrite_display, hDisplay]
  · simpa [KeepsFlags] using h.flags
  · simpa [KeepsPrivilege] using h.privilege
  · simpa [KeepsHostSide] using h.hostSide

/-- A load that no data read of the instruction precedes. -/
theorem State.advance_loadFrom_spec (s : State) (dr : RegNum) (ea : Word) :
    WritesResult dr (s.rawRead ea) s (s.advance.loadFrom dr ea) ∧ ReadsOnly [ea] s (s.advance.loadFrom dr ea) := by
  have hLoad := s.advance_pastReads.loadFrom dr ea
  rwa [cellAfterReads_nil] at hLoad

/-! ## The instructions -/

/-- Settles O22: both instructions are one load past the fetch, each from its own address. -/
theorem ldAndLdrLoadTheWordAtTheirAddress : Obligations.LdAndLdrLoadTheWordAtTheirAddress := fun s dr =>
  ⟨fun _ => ⟨_, rfl, s.advance_loadFrom_spec dr _⟩, fun _ _ => ⟨_, rfl, s.advance_loadFrom_spec dr _⟩⟩

/-- Settles O23: the load comes past the read of the pointer, whose word is its address (D29). -/
theorem ldiLoadsThroughThePointer : Obligations.LdiLoadsThroughThePointer := fun s dr _ =>
  ⟨_, rfl, (s.advance_pastReads.afterMemRead _).loadFrom dr _⟩

/-- Settles O25: both instructions are one store past the fetch, each to its own address. -/
theorem stAndStrStoreAtTheirAddress : Obligations.StAndStrStoreAtTheirAddress := fun s sr =>
  ⟨fun _ => ⟨_, rfl, s.advance_pastReads.memWrite _ (s.reg sr)⟩,
    fun _ _ => ⟨_, rfl, s.advance_pastReads.memWrite _ (s.reg sr)⟩⟩

/-- Settles O26: the store comes past the read of the pointer, whose word is its address (D29). -/
theorem stiStoresThroughThePointer : Obligations.StiStoresThroughThePointer := fun s sr _ =>
  ⟨_, rfl, (s.advance_pastReads.afterMemRead _).memWrite _ (s.reg sr)⟩

/-- The flags after LEA's write of the PSR, for either value of the parameter (R174, D8). -/
theorem State.setPsr_setccIf_flags (s : State) (writes : Bool) (v : Word) :
    (writes = true → FlagsOf v (s.setPsr (s.psr.setccIf writes v))) ∧
    (writes = false → KeepsFlags s (s.setPsr (s.psr.setccIf writes v))) := by
  refine ⟨?_, ?_⟩
  · rintro rfl; exact s.setcc_flagsOf v
  · rintro rfl; exact ⟨rfl, rfl, rfl⟩

/-- Settles O24: the address goes to one register, and the flags alone depend on the parameter. -/
theorem leaLoadsTheAddressItself : Obligations.LeaLoadsTheAddressItself := by
  intro s dr off v
  obtain ⟨hWrites, hKeeps⟩ := (s.advance.setReg dr v).setPsr_setccIf_flags Config.leaSetsCC v
  exact ⟨_, rfl, s.advance.setReg_reg_same dr v,
    fun r hr => s.advance.setReg_reg_other v (List.ne_of_not_mem_cons hr), rfl, hWrites, hKeeps,
    ⟨rfl, rfl, rfl, rfl⟩, ⟨rfl, rfl, rfl⟩, ⟨fun _ => rfl, rfl⟩⟩

end Sys2Proof.Machine
end

section
/-! PROOFS. The system instructions (44_system.md): TRAP, RTI and the reserved opcode, each one of the shared operations
of an entry or a return. -/

namespace Sys2Proof.Machine

open Sys2Proof.Safety

/-- Settles O27: TRAP is the trap operation on its vector. -/
theorem trapEntersThroughTheTrapTable : Obligations.TrapEntersThroughTheTrapTable := fun s v =>
  ⟨_, rfl, s.trapTo_spec v⟩

/-- Settles O29: RTI in supervisor mode is the return made past the fetch, and the return sets the `pc` without reading
the one that the fetch incremented (R182). -/
theorem rtiInSupervisorModeReturns : Obligations.RtiInSupervisorModeReturns := fun s hMode =>
  ⟨_, execRti_supervisor hMode, s.advance.returnFromEntry_spec⟩

/-- Settles O31: the reserved opcode is the entry of vector 0x01, whatever the mode. -/
theorem reservedOpcodeTakesTheIllegalOpcodeException :
    Obligations.ReservedOpcodeTakesTheIllegalOpcodeException := fun s =>
  ⟨_, rfl, s.exceptionEntry_spec 0x01#8⟩

/-! ## The privilege violation (R183, R201) -/

/-- Vector 0x00 belongs to RTI met in user mode alone: step 1 looks for the reserved opcode first, and that has
another opcode and another vector. -/
theorem exceptionCheck_eq_privilegeViolation_iff (w : Word) (m : Mode) :
    exceptionCheck w m = some privilegeViolationVector ↔ m = .user ∧ opcodeOf w = 0b1000#4 := by
  have hVectors : illegalOpcodeVector ≠ privilegeViolationVector := by decide
  unfold exceptionCheck
  split
  next hReserved => simp [hReserved, hVectors]
  next =>
    split
    next hRti => simp [hRti]
    next hNot => simpa [and_comm] using hNot

/-- The frame of an entry has the saved `pc` on top (R204): its push is the later of the two, so the word is there even
where the push of the PSR reached a device. -/
theorem cellAfterFrame_top (s : State) : cellAfterFrame s (entryStack s - 2#16) = s.pc := by
  simp [cellAfterFrame, cellAfterWrite]

/-- Once the handler is entered, `x[6]` points to the saved `pc` (R204, R213). -/
theorem rawRead_top_of_entersHandler {v : Vector8} {s t : State} (h : EntersHandler v s t) :
    t.rawRead (t.reg 6#3) = s.pc := by
  obtain ⟨hStack, -, -, -, hCells, -⟩ := h
  rw [hStack, hCells, cellAfterFrame_top]

/-- Settles O30: step 1 finds vector 0x00, the step is its entry, and from user mode the entry pushes through
`saved_ssp`. -/
theorem rtiInUserModeTakesThePrivilegeViolation : Obligations.RtiInUserModeTakesThePrivilegeViolation := by
  refine ⟨fun s hClock hMode hOp => ?_, exceptionCheck_eq_privilegeViolation_iff⟩
  have hCheck : exceptionCheck s.wordAtPc s.psr.mode = some privilegeViolationVector :=
    (exceptionCheck_eq_privilegeViolation_iff _ _).mpr ⟨hMode, hOp⟩
  obtain ⟨hEnters, hPsrAndLatch⟩ := s.exceptionEntry_spec privilegeViolationVector
  have ⟨hTop, _⟩ := hEnters
  have hStack : entryStack s = s.savedSsp := by simp only [entryStack, hMode]
  rw [hStack] at hTop
  exact ⟨_, step_of_exceptionCheck hClock hCheck, ⟨hEnters, hPsrAndLatch⟩, rawRead_top_of_entersHandler hEnters, hTop⟩

end Sys2Proof.Machine
end

section
/-! PROOFS. Exceptions, interrupts and run control (60_exceptions.md): the two ends of a cycle, the return that undoes
an entry, what a step does to the mode and to the latch, and the loops of the host. -/

namespace Sys2Proof.Machine

open Sys2Proof.Safety

variable {s t u : State} {r : CycleResult}

/-! ## The two ends of a cycle (R140, R207, R212) -/

theorem State.cycle_of_exceptionCheck {v : Vector8} (hCheck : exceptionCheck s.wordAtPc s.psr.mode = some v) :
    s.cycle = .next (s.exceptionEntry v, .tookTrap) := by
  simp only [State.cycle, exec_of_exceptionCheck hCheck, hCheck]

theorem State.cycle_of_exec (hCheck : exceptionCheck s.wordAtPc s.psr.mode = none)
    (hu : exec (decode s.wordAtPc) s = .next u) : s.cycle = .next u.interruptCheck := by
  simp only [State.cycle, hu, hCheck]

/-- A cycle always completes (R51, R203). -/
theorem State.cycle_next (s : State) : ∃ t r, s.cycle = .next (t, r) := by
  cases hCheck : exceptionCheck s.wordAtPc s.psr.mode with
  | some v => exact ⟨_, _, State.cycle_of_exceptionCheck hCheck⟩
  | none =>
    obtain ⟨u, hu⟩ := exec_next (decode s.wordAtPc) s
    exact ⟨_, _, State.cycle_of_exec hCheck hu⟩

theorem State.cycleState_of_cycle (hCycle : s.cycle = .next (t, r)) : s.cycleState = .next t := by
  simp only [State.cycleState, hCycle]

theorem step_eq_cycleState (hClock : s.clockEnabled = true) : step s = s.cycleState := by
  simp only [step, hClock, cond_true]

/-! ## Exceptions (R201 to R207) -/

theorem exceptionCheck_isSome_iff (w : Word) (m : Mode) :
    (exceptionCheck w m).isSome = true ↔ opcodeOf w = 0b1101#4 ∨ (opcodeOf w = 0b1000#4 ∧ m = .user) := by
  unfold exceptionCheck
  split
  next hReserved => simp [hReserved]
  next hReserved =>
    split
    next hRti => simp [hRti]
    next hNot => simp [hReserved, hNot]

/-- Step 4 never answers the result of an exception. -/
theorem State.interruptCheck_ne_tookTrap (s : State) : s.interruptCheck.2 ≠ .tookTrap := by
  rcases s.interruptCheck_cases with ⟨-, -, hTaken⟩ | ⟨-, hKept⟩
  · rw [hTaken]; exact CycleResult.noConfusion
  · rw [hKept]; exact CycleResult.noConfusion

/-- Settles O36: the result is the exception's exactly where step 1 finds a vector, and step 1 looks at the opcode and
the mode. -/
theorem exceptionsDependOnWordAndModeOnly : Obligations.ExceptionsDependOnWordAndModeOnly := by
  intro s t r hCycle
  refine Iff.trans ?_ (exceptionCheck_isSome_iff s.wordAtPc s.psr.mode)
  cases hCheck : exceptionCheck s.wordAtPc s.psr.mode with
  | some v =>
    rw [State.cycle_of_exceptionCheck hCheck] at hCycle
    cases hCycle
    exact iff_of_true rfl rfl
  | none =>
    obtain ⟨u, hu⟩ := exec_next (decode s.wordAtPc) s
    have hEnd : u.interruptCheck = (t, r) :=
      Host.Outcome.next.inj ((State.cycle_of_exec hCheck hu).symm.trans hCycle)
    have hResult : u.interruptCheck.2 = r := congrArg Prod.snd hEnd
    exact iff_of_false (hResult ▸ u.interruptCheck_ne_tookTrap) Bool.false_ne_true

/-- Settles O37: the cycle ends with the entry, which keeps the latch. -/
theorem exceptionCycleEndsWithTheEntry : Obligations.ExceptionCycleEndsWithTheEntry := fun s v hClock hCheck =>
  ⟨_, step_of_exceptionCheck hClock hCheck, s.exceptionEntry_spec v, State.cycle_of_exceptionCheck hCheck⟩

/-! ## Interrupts (R212, R213) -/

theorem State.interruptCheck_of_above (hPending : s.irq.asserted = true) (hAbove : s.psr.pl < s.irq.pl) :
    s.interruptCheck = (s.interruptEntry, .tookInterrupt) := by
  rcases s.interruptCheck_cases with ⟨-, -, hTaken⟩ | ⟨hNot, -⟩
  · exact hTaken
  · exact absurd ⟨hPending, hAbove⟩ hNot

theorem State.interruptCheck_of_not_above (h : ¬ (s.irq.asserted = true ∧ s.psr.pl < s.irq.pl)) :
    s.interruptCheck = (s, .normal) := by
  rcases s.interruptCheck_cases with ⟨hPending, hAbove, -⟩ | ⟨-, hKept⟩
  · exact absurd ⟨hPending, hAbove⟩ h
  · exact hKept

/-- Settles O38: past step 1 the cycle is the interrupt check of the state that the instruction left. -/
theorem arbiterTakesTheRequestAboveThePriority : Obligations.ArbiterTakesTheRequestAboveThePriority := by
  intro s u hClock hCheck hu
  have hCycle : s.cycle = .next u.interruptCheck := State.cycle_of_exec hCheck hu
  refine ⟨fun ⟨hPending, hAbove⟩ => ?_, fun hNot => ?_⟩
  · rw [hCycle, State.interruptCheck_of_above hPending hAbove]
  · rw [State.interruptCheck_of_not_above hNot] at hCycle
    exact ⟨hCycle, (step_eq_cycleState hClock).trans (State.cycleState_of_cycle hCycle)⟩

/-- Settles O39: a step whose request is above the priority ends with the interrupt entry. -/
theorem interruptEntryLoadsTheNewPsr : Obligations.InterruptEntryLoadsTheNewPsr := by
  intro s u hClock hCheck hu hPending hAbove
  have hStep : step s = .next u.interruptCheck.1 := step_of_exec hClock hCheck hu
  rw [State.interruptCheck_of_above hPending hAbove] at hStep
  exact ⟨_, hStep, u.interruptEntry_spec⟩

/-! ## The return after an entry (R182, R217) -/

theorem entryStack_of_user (h : s.psr.mode = .user) : entryStack s = s.savedSsp := by
  rw [entryStack, h]

theorem entryStack_of_supervisor (h : s.psr.mode = .supervisor) : entryStack s = s.reg 6#3 := by
  rw [entryStack, h]

/-- The PSR word of a frame stands above the saved `pc`, and the push of the `pc` leaves it there: where that push goes
to DDR, the cell it touches besides is DSR, which does not lie above DDR. -/
theorem cellAfterFrame_second (s : State) : cellAfterFrame s (entryStack s - 1#16) = s.psr.word := by
  have hTop : entryStack s - 1#16 ≠ entryStack s - 2#16 := by bv_omega
  have hDevice : ¬ (entryStack s - 1#16 = dsr ∧ entryStack s - 2#16 = ddr) := by
    unfold dsr ddr; bv_omega
  simp [cellAfterFrame, cellAfterWrite, hTop, hDevice]

/-- A read of a cell has no side effect on the cell above it, since KBSR does not lie above KBDR. -/
theorem cellAfterReads_above (s : State) (a : Word) : cellAfterReads [a] s (a + 1#16) = s.rawRead (a + 1#16) := by
  refine if_neg fun ⟨hKbsr, hKbdr⟩ => ?_
  rw [← List.eq_of_mem_singleton hKbdr] at hKbsr
  exact absurd hKbsr (by decide)

/-- Once the handler is entered, the PSR that an RTI would pop is the one from before the entry. -/
theorem poppedPsr_of_entersHandler {v : Vector8} (h : EntersHandler v s t) : poppedPsr t = s.psr := by
  obtain ⟨hStack, -, -, -, hCells, -⟩ := h
  have hSecond : t.reg 6#3 + 1#16 = entryStack s - 1#16 := by rw [hStack]; bv_omega
  rw [poppedPsr, cellAfterReads_above, hSecond, hCells, cellAfterFrame_second, PSR.ofWord_word]

/-- RTI in the state in which a handler is entered gives back what the entry changed outside memory. -/
theorem rti_reverses_entersHandler {v : Vector8} (h : EntersHandler v s t) (hMode : t.psr.mode = .supervisor) :
    ∃ u, exec .rti t = .next u ∧ u.pc = s.pc ∧ u.psr = s.psr ∧ (∀ r, u.reg r = s.reg r) ∧
      u.savedSsp = s.savedSsp := by
  obtain ⟨u, hu, hPc, hPsr, hReg, hSsp, -, hRegs, -⟩ := rtiInSupervisorModeReturns t hMode
  have hTop := rawRead_top_of_entersHandler h
  have hPopped := poppedPsr_of_entersHandler h
  obtain ⟨hEntryStack, hEntryRegs, hEntryUsp, hEntrySsp, -⟩ := h
  have hAbove : t.reg 6#3 + 2#16 = entryStack s := by rw [hEntryStack]; exact BitVec.sub_add_cancel _ _
  rw [hPopped, hAbove] at hReg hSsp
  have ⟨hSp, hSlot⟩ : u.reg 6#3 = s.reg 6#3 ∧ u.savedSsp = s.savedSsp := by
    cases hs : s.psr.mode with
    | user =>
      rw [if_pos hs] at hReg hSsp
      exact ⟨hReg.trans (hEntryUsp.trans (entryUsp_of_user hs)), hSsp.trans (entryStack_of_user hs)⟩
    | supervisor =>
      have hNot : s.psr.mode ≠ .user := hs ▸ Mode.noConfusion
      rw [if_neg hNot] at hReg hSsp
      exact ⟨hReg.trans (entryStack_of_supervisor hs), hSsp.trans hEntrySsp⟩
  refine ⟨u, hu, hPc.trans hTop, hPsr.trans hPopped, fun r => ?_, hSlot⟩
  by_cases hr : r ∈ [6#3]
  · rw [List.eq_of_mem_singleton hr]; exact hSp
  · exact (hRegs r hr).trans (hEntryRegs r hr)

/-- Settles O40: both entries enter their handler in supervisor mode. -/
theorem rtiReversesEveryEntry : Obligations.RtiReversesEveryEntry := by
  intro s v t ht
  rcases List.mem_pair.mp ht with rfl | rfl
  · obtain ⟨hEnters, hMode, -⟩ := s.exceptionEntry_spec v
    exact rti_reverses_entersHandler hEnters hMode
  · obtain ⟨hEnters, -⟩ := s.interruptEntry_spec
    exact rti_reverses_entersHandler hEnters s.interruptEntry_mode_savedUsp.1

/-! ## The mode and the latch under a step (R211, R221) -/

/-- Step 4 ends in user mode only where it took no interrupt. -/
theorem State.interruptCheck_of_user (h : s.interruptCheck.1.psr.mode = .user) : s.interruptCheck.1 = s := by
  rcases s.interruptCheck_cases with ⟨-, -, hTaken⟩ | ⟨-, hKept⟩
  · rw [hTaken, s.interruptEntry_mode_savedUsp.1] at h
    cases h
  · rw [hKept]

theorem KeepsOrRaisesPrivilege.mode_supervisor (h : KeepsOrRaisesPrivilege s u) (hs : s.psr.mode = .supervisor) :
    u.psr.mode = .supervisor := by
  obtain ⟨-, -, ⟨hMode, -⟩ | ⟨hMode, -⟩⟩ := h
  · exact hMode.trans hs
  · exact hMode

/-- A word loads as a PSR in user mode exactly when its bit 15 is set (R24). -/
theorem PSR.ofWord_mode_eq_user_iff (w : Word) : (PSR.ofWord w).mode = .user ↔ w.getLsbD 15 = true := by
  unfold PSR.ofWord
  cases w.getLsbD 15 <;> simp

/-- Settles O44: in supervisor mode every other end of a step is in supervisor mode, and the mode after an RTI is that
of the popped word. -/
theorem onlyRtiEntersUserMode : Obligations.OnlyRtiEntersUserMode := by
  intro s t hStep hs ht
  rcases step_cases hStep with ⟨-, ⟨v, -, rfl⟩ | ⟨-, u, hu, rfl⟩⟩
  · rw [(s.exceptionEntry_privilege v).mode_supervisor hs] at ht
    cases ht
  · rw [State.interruptCheck_of_user ht] at ht
    by_cases hRti : decode s.wordAtPc = .rti
    · rw [hRti, execRti_supervisor hs] at hu
      obtain rfl := Host.Outcome.next.inj hu
      obtain ⟨-, hPsr, -⟩ := s.advance.returnFromEntry_spec
      rw [hPsr] at ht
      exact ⟨hRti, (PSR.ofWord_mode_eq_user_iff _).mp ht⟩
    · rw [(exec_privilege hu hRti).mode_supervisor hs] at ht
      cases ht

/-- Settles O47: an entry and an instruction keep the latch, and step 4 clears it by taking the request. -/
theorem latchIsOnlyClearedByACycle : Obligations.LatchIsOnlyClearedByACycle := by
  intro s t hStep
  rcases step_cases hStep with ⟨-, ⟨v, -, rfl⟩ | ⟨-, u, hu, rfl⟩⟩
  · exact .inl (s.exceptionEntry_keepsHostSide v).1
  · obtain ⟨hIrq, -⟩ := exec_keepsHostSide hu
    rcases u.interruptCheck_cases with ⟨hPending, -, hTaken⟩ | ⟨-, hKept⟩
    · obtain ⟨-, hPsr, hLatch⟩ := u.interruptEntry_spec
      rw [hIrq] at hPending hPsr hLatch
      rw [hTaken]
      exact .inr ⟨hPending, hLatch, hPsr⟩
    · rw [hKept]; exact .inl hIrq

/-! ## stepIn (R229) -/

theorem State.stepIn_eq_step (s : State) : s.stepIn = step s.setClockEnable :=
  (step_eq_cycleState s.setClockEnable_clockEnabled).symm

/-- Settles O58: the cycle completes, and the step it is does the same beside another breakpoint set. -/
theorem stepInMakesExactlyOneCycle : Obligations.StepInMakesExactlyOneCycle := by
  intro s
  obtain ⟨t, r, hCycle⟩ := s.setClockEnable.cycle_next
  have hStepIn : s.stepIn = .next t := State.cycleState_of_cycle hCycle
  refine ⟨s.stepIn_eq_step, t, r, hCycle, hStepIn, fun bs => ?_⟩
  rw [State.stepIn_eq_step] at hStepIn ⊢
  obtain ⟨-, hLaunch, hBeside⟩ := hostSideDoesNotInfluenceTheCore _ _ bs s.launch hStepIn
  have hKept : ({ t with breakpoints := bs, launch := s.launch } : State) = { t with breakpoints := bs } := by
    rw [← show t.launch = s.launch from hLaunch]
  exact hBeside.trans (congrArg Host.Outcome.next hKept)

/-! ## The loops of the host (R227, R228, R232) -/

theorem not_loopGoesOn_iff : ¬ LoopGoesOn t ↔ t.clockEnabled = false ∨ t.pc ∈ t.breakpoints := by
  rw [Decidable.not_and_iff_not_or_not, Bool.not_eq_true, not_not]

section

variable {depth : Option Int} {gap : List Action} {rest : List (List Action)}

/-- A loop ends after a cycle that leaves the clock disabled, the `pc` at a breakpoint, or a tracked depth at or
below 0. -/
theorem runLoop_stop (hClock : s.clockEnabled = true) (hCycle : s.cycle = .next (t, r))
    (hStop : ¬ LoopGoesOn t ∨ ∃ d ∈ depth, depthAfter d s.wordAtPc r ≤ 0) :
    runLoop depth (gap :: rest) s = .next { stopped := true, state := t } := by
  have hTest : t.loopStops = true ∨
      (depth.map fun d => depthAfter d s.wordAtPc r).any (fun d => decide (d ≤ 0)) = true := by
    rcases hStop with hHost | ⟨d, rfl, hDepth⟩
    · exact .inl (t.loopStops_iff.mpr hHost)
    · exact .inr (decide_eq_true hDepth)
  simp only [runLoop, hClock, cond_true, hCycle, if_pos hTest]

/-- A loop goes on after any other cycle, from the new depth where one is tracked, once the gap has acted. -/
theorem runLoop_goOn (hClock : s.clockEnabled = true) (hCycle : s.cycle = .next (t, r)) (hOn : LoopGoesOn t)
    (hDepth : ∀ d ∈ depth, 0 < depthAfter d s.wordAtPc r) :
    runLoop depth (gap :: rest) s =
      runLoop (depth.map fun d => depthAfter d s.wordAtPc r) rest (t.actAll gap) := by
  have hTest : ¬ (t.loopStops = true ∨
      (depth.map fun d => depthAfter d s.wordAtPc r).any (fun d => decide (d ≤ 0)) = true) := by
    rintro (hHost | hZero)
    · exact t.loopStops_iff.mp hHost hOn
    · cases depth with
      | none => cases hZero
      | some d => exact absurd (hDepth d rfl) (Int.not_lt.mpr (of_decide_eq_true hZero))
  simp only [runLoop, hClock, cond_true, hCycle, if_neg hTest]

theorem runLoop_halted (hClock : s.clockEnabled = false) :
    runLoop depth (gap :: rest) s = .next { stopped := true, state := s } := by
  simp only [runLoop, hClock, cond_false]

end

/-! ## run (R228) -/

/-- A loop that tracks no depth ends without a fault, and stops of itself only where it may not go on. -/
theorem runLoop_none_end (schedule : List (List Action)) (s : State) :
    ∃ e, runLoop none schedule s = .next e ∧ (e.stopped = true → ¬ LoopGoesOn e.state) := by
  induction schedule generalizing s with
  | nil => exact ⟨_, rfl, fun hStopped => Bool.noConfusion hStopped⟩
  | cons gap rest ih =>
    cases hClock : s.clockEnabled with
    | false => exact ⟨_, runLoop_halted hClock, fun _ => not_loopGoesOn_iff.mpr (.inl hClock)⟩
    | true =>
      obtain ⟨t, r, hCycle⟩ := s.cycle_next
      by_cases hOn : LoopGoesOn t
      · rw [runLoop_goOn hClock hCycle hOn fun _ h => by cases h]
        exact ih _
      · exact ⟨_, runLoop_stop hClock hCycle (.inl hOn), fun _ => hOn⟩

/-- Settles O59: `run` is the loop without a depth, from a state whose clock is enabled. -/
theorem runStopsOnlyHaltedOrAtABreakpoint : Obligations.RunStopsOnlyHaltedOrAtABreakpoint := by
  refine ⟨fun s schedule => ?_, fun s t gap rest r hCycle => ⟨fun hStop => ?_, fun hClock hPc => ?_⟩⟩
  · obtain ⟨e, hRun, hStop⟩ := runLoop_none_end schedule s.setClockEnable
    exact ⟨e, hRun, fun hStopped => not_loopGoesOn_iff.mp (hStop hStopped)⟩
  · exact runLoop_stop s.setClockEnable_clockEnabled hCycle (.inl (not_loopGoesOn_iff.mpr hStop))
  · exact runLoop_goOn s.setClockEnable_clockEnabled hCycle ⟨hClock, hPc⟩ fun _ h => by cases h

/-! ## stepOver and stepOut (R230 to R232) -/

section

variable {w : Word} {d d' : Int} {gap : List Action} {rest : List (List Action)}

theorem depthGoes_of_call (h : CallWord w) (d : Int) : DepthGoes w .normal d (d + 1) :=
  .inr ⟨0, .inl ⟨rfl, rfl⟩, .inl ⟨h, (Int.add_zero _).symm⟩⟩

theorem depthGoes_of_return (h : ReturnWord w) (d : Int) : DepthGoes w .normal d (d - 1) :=
  .inr ⟨0, .inl ⟨rfl, rfl⟩, .inr (.inl ⟨h, (Int.add_zero _).symm⟩)⟩

theorem depthGoes_of_neither (hCall : ¬ CallWord w) (hReturn : ¬ ReturnWord w) (d : Int) :
    DepthGoes w .normal d d :=
  .inr ⟨0, .inl ⟨rfl, rfl⟩, .inr (.inr ⟨hCall, hReturn, (Int.add_zero _).symm⟩)⟩

/-- A word that is no call leaves the depth of a normal cycle where it was or one lower. -/
theorem depthGoes_le_of_not_call (h : ¬ CallWord w) (d : Int) : ∃ d' ≤ d, DepthGoes w .normal d d' := by
  by_cases hReturn : ReturnWord w
  · exact ⟨d - 1, Int.sub_le_self d (by decide), depthGoes_of_return hReturn d⟩
  · exact ⟨d, Int.le_refl d, depthGoes_of_neither h hReturn d⟩

theorem runLoop_some_stop (hClock : s.clockEnabled = true) (hCycle : s.cycle = .next (t, r))
    (hGoes : DepthGoes s.wordAtPc r d d') (hStop : ¬ LoopGoesOn t ∨ d' ≤ 0) :
    runLoop (some d) (gap :: rest) s = .next { stopped := true, state := t } := by
  rw [← depthAfter_of_depthGoes hGoes] at hStop
  exact runLoop_stop hClock hCycle (hStop.imp_right fun h => ⟨d, rfl, h⟩)

theorem runLoop_some_goOn (hClock : s.clockEnabled = true) (hCycle : s.cycle = .next (t, r))
    (hGoes : DepthGoes s.wordAtPc r d d') (hOn : LoopGoesOn t) (hDepth : 0 < d') :
    runLoop (some d) (gap :: rest) s = runLoop (some d') rest (t.actAll gap) := by
  rw [← depthAfter_of_depthGoes hGoes] at hDepth ⊢
  exact runLoop_goOn hClock hCycle hOn fun e he => Option.some.inj he ▸ hDepth

end

/-- Settles O60: the loops stop and go on by the depth of R232, and each clause about `stepOver` and `stepOut` is one
of these two at the depth to which its word leads. -/
theorem stepOverAndStepOutStopAtTheirDepth : Obligations.StepOverAndStepOutStopAtTheirDepth := by
  refine ⟨fun s t r d d' gap rest hClock hCycle hGoes => ⟨runLoop_some_stop hClock hCycle hGoes,
      runLoop_some_goOn hClock hCycle hGoes⟩,
    fun s d gap rest => ⟨runLoop_halted, rfl⟩, ?_⟩
  intro s t gap gap' rest hCycle w next
  have hClock := s.setClockEnable_clockEnabled
  refine ⟨fun hNoCall => ?_, fun hReturn => ?_, fun hOn => ⟨fun hCall => ?_, fun hNoCall hNoReturn => ?_, ?_⟩⟩
  · obtain ⟨d', hLe, hGoes⟩ := depthGoes_le_of_not_call hNoCall 0
    exact ⟨runLoop_some_stop hClock hCycle hGoes (.inr hLe), State.cycleState_of_cycle hCycle⟩
  · exact runLoop_some_stop hClock hCycle (depthGoes_of_return hReturn 1) (.inr (by decide))
  · exact ⟨runLoop_some_goOn hClock hCycle (depthGoes_of_call hCall 0) hOn (by decide),
      runLoop_some_goOn hClock hCycle (depthGoes_of_call hCall 1) hOn (by decide)⟩
  · exact runLoop_some_goOn hClock hCycle (depthGoes_of_neither hNoCall hNoReturn 1) hOn (by decide)
  · intro u hCall hNextClock hNextCycle hReturn
    have hFirst : s.stepOver (gap :: gap' :: rest) = runLoop (some 1) (gap' :: rest) next :=
      runLoop_some_goOn hClock hCycle (depthGoes_of_call hCall 0) hOn (by decide)
    rw [hFirst]
    exact runLoop_some_stop hNextClock hNextCycle (depthGoes_of_return hReturn 1) (.inr (by decide))

end Sys2Proof.Machine
end

section
/-! PROOFS. Reset and hazards (70_reset_and_hazards.md): when the core steps, the four reset modes of the host, and its
writes between two cycles. -/

namespace Sys2Proof.Machine

open Sys2Proof.Safety

/-! ## When the core steps (R262) -/

theorem step_of_clock_disabled {s : State} (hClock : s.clockEnabled = false) : step s = .fault .halted := by
  simp only [step, hClock, cond_false]

/-- Settles O35: a cycle always completes, so the clock-enable bit alone decides whether there is a next state. -/
theorem coreStepsExactlyWhileTheClockIsEnabled : Obligations.CoreStepsExactlyWhileTheClockIsEnabled := by
  refine fun s => ⟨fun hClock => ?_, step_of_clock_disabled⟩
  obtain ⟨t, r, hCycle⟩ := s.cycle_next
  exact ⟨t, (step_eq_cycleState hClock).trans (State.cycleState_of_cycle hCycle)⟩

/-! ## Reload (R250) -/

theorem State.reload_rawRead (s : State) (img : ObjectImage) (a : Word) :
    (s.reload img).rawRead a = (s.mem.writeFrom img.origin img.words).read a := rfl

theorem State.reload_reg (s : State) (img : ObjectImage) (r : RegNum) : (s.reload img).reg r = 0x0000#16 :=
  Vector.getElem_replicate _

/-- Two words of an image that fits the address space fall on different cells. -/
theorem add_ofNat_ne_of_lt {i j : Nat} (hLt : i < j) (hj : j < 2 ^ 16) (a : Word) :
    a + BitVec.ofNat 16 j ≠ a + BitVec.ofNat 16 i := by
  bv_omega

/-- Settles O52: memory is that of the image load, and no word of an image that fits is overwritten by a later one. -/
theorem reloadEstablishesTheLaunchPremises : Obligations.ReloadEstablishesTheLaunchPremises := by
  refine fun s img => ⟨(by decide : PSR.reset.word = 0x8000#16), ⟨rfl, rfl⟩, s.reload_reg img, rfl, rfl, rfl,
    fun hFits i hi => ?_, fun a hOutside => Memory.read_writeFrom_of_outside hOutside s.mem, rfl, rfl⟩
  exact Memory.read_writeFrom_of_last hi
    (fun j hLt hj => add_ofNat_ne_of_lt hLt (Nat.lt_of_lt_of_le hj hFits) img.origin) s.mem

/-- Loading one image keeps two memories alike at an address where they were alike. -/
theorem Memory.read_writeFrom_congr {m m' : Memory} {b : Word} (h : m.read b = m'.read b) (a : Word)
    (ws : List Word) : (m.writeFrom a ws).read b = (m'.writeFrom a ws).read b := by
  induction ws generalizing a m m' with
  | nil => exact h
  | cons w rest ih => exact ih (by rw [Memory.read_write, Memory.read_write, h]) _

/-- The cells that an image covers do not depend on the memory it is loaded into, even where it wraps onto itself. -/
theorem Memory.read_writeFrom_covered {a : Word} {ws : List Word} {i : Nat} (hi : i < ws.length) (m m' : Memory) :
    (m.writeFrom a ws).read (a + BitVec.ofNat 16 i) = (m'.writeFrom a ws).read (a + BitVec.ofNat 16 i) := by
  induction ws generalizing a m m' i with
  | nil => exact absurd hi (Nat.not_lt_zero i)
  | cons w rest ih =>
    cases i with
    | zero =>
      have hAlike : (m.write a w).read (a + BitVec.ofNat 16 0) = (m'.write a w).read (a + BitVec.ofNat 16 0) := by
        simp
      exact Memory.read_writeFrom_congr hAlike (a + 1#16) rest
    | succ i =>
      rw [add_ofNat_succ a i]
      exact ih (Nat.lt_of_succ_lt_succ hi) _ _

/-- Settles O53: outside memory both reloads give the same constants. -/
theorem twoReloadsOfOneImageAgree : Obligations.TwoReloadsOfOneImageAgree := fun s s' img =>
  ⟨rfl, rfl, fun _ => rfl, fun _ hi => Memory.read_writeFrom_covered hi s.mem s'.mem,
    fun hAlike a => Memory.read_writeFrom_congr (hAlike a) img.origin img.words⟩

/-! ## Reset memory and Randomise memory (R252, R253) -/

/-- Settles O54: the words of `OS_IMAGE` are stored into the memory that reads 0 everywhere. -/
theorem resetMemoryZeroesAllButTheOsImage : Obligations.ResetMemoryZeroesAllButTheOsImage := fun _ hMap =>
  ⟨fun _ hc => Memory.read_writeAll_of_mem hMap hc _,
    fun a hOutside => (Memory.read_writeAll_of_not_mem hOutside _).trans (Memory.read_empty a), rfl⟩

/-- The draw that gives every cell of the address space the word `content` gives it. -/
def drawOf (content : Word → Word) : List (Word × Word) :=
  (List.finRange (2 ^ 16)).map fun i => (BitVec.ofFin i, content (BitVec.ofFin i))

theorem mem_drawOf (content : Word → Word) (a : Word) : (a, content a) ∈ drawOf content :=
  List.mem_map.mpr ⟨a.toFin, List.mem_finRange _, rfl⟩

theorem drawOf_addresses_nodup (content : Word → Word) : ((drawOf content).map Prod.fst).Nodup := by
  rw [drawOf, List.map_map]
  exact (List.nodup_finRange _).map fun _ _ h => congrArg BitVec.toFin h

/-- Settles O55: a draw that names every cell once reaches any content, and the words of `OS_IMAGE` are stored after
it. -/
theorem randomiseMemoryReachesEveryContent : Obligations.RandomiseMemoryReachesEveryContent := by
  refine ⟨fun s draw => ⟨fun hMap c hc => Memory.read_writeAll_of_mem hMap hc _, rfl⟩,
    fun content => ⟨drawOf content, fun s a hOutside => ?_⟩⟩
  calc (s.randomiseMemory (drawOf content)).rawRead a
    _ = (({ cells := [] } : Memory).writeAll (drawOf content)).read a := Memory.read_writeAll_of_not_mem hOutside _
    _ = content a := Memory.read_writeAll_of_mem (drawOf_addresses_nodup content) (mem_drawOf content a) _

/-! ## Restart and the host's writes (R228, R233, R234, R251) -/

/-- Settles O56: each action is one of the one-field updates, whose laws say what it sets and what it leaves. -/
theorem restartAndHostWritesChangeOneThing : Obligations.RestartAndHostWritesChangeOneThing := by
  refine fun s a v r => ⟨rfl, rfl, rfl, ⟨s.setReg_reg_same r v, fun k hk => ?_, rfl⟩,
    ⟨(s.rawWrite_rawRead a a v).trans (if_pos rfl), fun b hb => s.rawWrite_rawRead_of_ne hb v, rfl⟩,
    s.clearClockEnable_clockEnabled, (s.rawWrite_rawRead mcr mcr _).trans (if_pos rfl),
    fun b hb => s.rawWrite_rawRead_of_ne hb _, rfl⟩
  exact s.setReg_reg_other v (List.ne_of_not_mem_cons hk)

end Sys2Proof.Machine
end
